-- ==== Sys2Proof/Word.lean ====
section
/-! DEFINITION. The two word types of the block (00_scope.md R13): `u8` and `u32`. -/

namespace Sys2Proof

/-- R13: a byte is `u8`. -/
abbrev Byte := BitVec 8

/-- R13: a 32-bit word is `u32`. -/
abbrev Word := BitVec 32

end Sys2Proof
end

