-- ==== Sys2Proof/Config.lean ====
section
/-! DEFINITION. What a build of the block fixes (00_scope.md R8 to R10) and the free values: the values the
spec leaves unspecified (93_implementation_defined.md U1, U3, U4, U18), as constants without a body. -/

namespace Sys2Proof

/-- The two capacities of a build: `TEXT_CAP` (R8) and `BYTE_CAP` (R9). They are configuration, not state that a
step changes (R30); `State` carries them so that every claim is about every build. -/
structure Config where
  textCap : Nat
  byteCap : Nat
  deriving DecidableEq, Repr

/-- R8, R9: the default build, `TEXT_CAP = BYTE_CAP = 256`. -/
def Config.default : Config := { textCap := 256, byteCap := 256 }

/-- R10: `BASE` is OPEN and 4096-aligned; this is the number of its 4096-byte page, left free. -/
opaque Config.basePage : Nat

/-- R10: the bus address of offset 0 of the window. -/
def Config.base : Nat := 4096 * Config.basePage

/-- U1, U4, U18 (R50, R303, R306): byte `index` of a buffer whose contents are unspecified under draw `draw`. No
value of it is known; it is the same at every read of that byte until the byte is written or the buffer is drawn anew. -/
opaque Config.freeByte : (draw index : Nat) → Byte

/-- U3 (R321): the unspecified `u32` that a host read while Busy returns; every such read uses a new `draw`. -/
opaque Config.freeWord : (draw : Nat) → Word

end Sys2Proof
end

