-- ==== Sys2Proof/Syntax.lean ====
section
/-! DEFINITION. The commands of B58DSHA command set revision 1 (00_scope.md R2; 30_encoding.md R112): one
constructor per row of spec/opcode_table.json. No command word carries an operand (R111), so no constructor has a field. -/

namespace Sys2Proof

/-- R112: the eight commands. -/
inductive Instr where
  | nop
  | dec58
  | enc58
  | hash2
  | chkver
  | chkapp
  | addr
  | validate
  deriving DecidableEq, Repr

end Sys2Proof
end

