-- ==== Sys2Proof/WellFormed.lean ====
section
/-! DEFINITION. Well-formedness: of a build's parameters (00_scope.md R8, R9), of a command word (30_encoding.md
R110, R114), and of a command, which has nothing to check (R111). -/

namespace Sys2Proof

/-- R8: a multiple of 4 in `36 .. 256`. R9: a multiple of 4 in `TEXT_CAP .. 256`. -/
abbrev Config.Valid (c : Config) : Prop :=
  c.textCap % 4 = 0 ∧ 36 ≤ c.textCap ∧ c.byteCap % 4 = 0 ∧ c.textCap ≤ c.byteCap ∧ c.byteCap ≤ 256

/-- R110, R114: `RSVD` is 0 and `OP` is one of the eight assigned numbers. -/
abbrev commandWordWellFormed (w : Word) : Prop := w.toNat / 16 = 0 ∧ w.toNat % 16 < 8

/-- R111: a command carries no operand, register number or immediate, so each is well formed. -/
def Instr.wellFormed : Instr → Bool
  | .nop => true
  | .dec58 => true
  | .enc58 => true
  | .hash2 => true
  | .chkver => true
  | .chkapp => true
  | .addr => true
  | .validate => true

end Sys2Proof
end

