-- ==== Sys2Proof/Decode.lean ====
section
/-! DEFINITION. The decoder (30_encoding.md R113), total on every 32-bit word, and the encoder (R110, R112) after it.
The block decodes one 32-bit word per CMD write: there is no byte stream, no length decoding and no operand (R115). -/

namespace Sys2Proof

/-- Why a word decodes to `BadCmd` (R114). -/
inductive BadCmd where
  /-- some bit of `w[31:4]` is set -/
  | reservedBits
  /-- `w[31:4] = 0` and `w[3:0]` is one of `0x8 .. 0xF` -/
  | reservedOp
  deriving DecidableEq, Repr

/-- R113: `decode`. -/
def decode (w : Word) : Except BadCmd Instr :=
  if w.extractLsb' 4 28 ≠ 0 then .error .reservedBits
  else
    match (w.extractLsb' 0 4).toNat with
    | 0x0 => .ok .nop
    | 0x1 => .ok .dec58
    | 0x2 => .ok .enc58
    | 0x3 => .ok .hash2
    | 0x4 => .ok .chkver
    | 0x5 => .ok .chkapp
    | 0x6 => .ok .addr
    | 0x7 => .ok .validate
    | _ => .error .reservedOp

/-- R112: the `OP` number of a command. -/
def opcode : Instr → BitVec 4
  | .nop => 0x0
  | .dec58 => 0x1
  | .enc58 => 0x2
  | .hash2 => 0x3
  | .chkver => 0x4
  | .chkapp => 0x5
  | .addr => 0x6
  | .validate => 0x7

/-- R110: `RSVD[31:4] = 0` above `OP[3:0]`. -/
def encode (i : Instr) : Word := (0 : BitVec 28) ++ opcode i

/-- The command word behind a row of the opcode table: the row's `nbits` bits, every bit above them 0. -/
def tableWord (nbits w : Nat) : Nat := w % 2 ^ nbits

/-- The instruction the decoder reads from a row's word; none where it answers `BadCmd`, and none for bits
above the one 32-bit word a command has (R110). -/
def decodeTableWord (nbits w : Nat) : Option Instr :=
  if tableWord nbits w < 2 ^ 32 then
    match decode (BitVec.ofNat 32 (tableWord nbits w)) with
    | .ok i => some i
    | .error _ => none
  else none

end Sys2Proof
end

