-- ==== Sys2Proof/Machine/State.lean ====
section
/-! DEFINITION. The state of the block (10_state.md R30): registers, buffers and engine, with the host's pending
actions as plain data, and the state after a hardware reset (R50). -/

namespace Sys2Proof.Machine

/-- Eight 32-bit registers of one name: `ALLOW0..7` (R43) or `DIGEST0..7` (R44). -/
structure Bank where
  w0 : Word
  w1 : Word
  w2 : Word
  w3 : Word
  w4 : Word
  w5 : Word
  w6 : Word
  w7 : Word
  deriving DecidableEq, Repr

/-- A buffer (R45, R46). `cells` lists the bytes written since the contents were last unspecified, by strictly
rising index; an unlisted byte reads as `Config.freeByte draw index` (U1, U4). -/
structure Memory where
  cells : List Host.Cell
  draw  : Nat
  deriving DecidableEq, Repr

/-- The completion codes (60_exceptions.md R271). Codes 9 to 15 are reserved and never produced. -/
inductive Code where
  | none
  | badSymbol
  | digitRange
  | checksum
  | length
  | version
  | overflow
  | lenRange
  | badCmd
  deriving DecidableEq, Repr

/-- The registers and buffers of R30. `ID`, `HWCFG` and `CMD` hold no changing value (R31, R32, R34), and
`STATUS.BUSY` is the engine state (R47), so they have no field here. Reserved bits read 0 and have none either (R82). -/
structure Arch where
  /-- `CTRL.IE` (R33) -/
  ie : Bool
  /-- `STATUS.DONE` (R35) -/
  done : Bool
  /-- `STATUS.OVR` (R35) -/
  ovr : Bool
  /-- `STATUS.ERR` (R35, R271) -/
  err : Code
  /-- `TEXT_LEN.LEN` (R38) -/
  textLen : BitVec 16
  /-- `BYTE_LEN.LEN` (R39) -/
  byteLen : BitVec 16
  /-- `ERR_INFO` (R40) -/
  errInfo : Word
  /-- `RESULT` (R41) -/
  result : Word
  /-- `CONV_INFO.LZC` (R42) -/
  convInfo : BitVec 16
  /-- `ALLOW0..7` (R43) -/
  allow : Bank
  /-- `DIGEST0..7` (R44) -/
  digest : Bank
  /-- `TB` (R45) -/
  tb : Memory
  /-- `BB` (R46) -/
  bb : Memory
  deriving DecidableEq, Repr

/-- R47: the engine is idle, or runs the command word `w` on the snapshot `S` taken at its start. -/
inductive Engine where
  | idle
  | busy (w : Word) (snapshot : Arch)
  deriving DecidableEq, Repr

/-- The width of a host access (R89). -/
inductive Width where
  | w8
  | w16
  | w32
  | w64
  deriving DecidableEq, Repr

/-- A host access reads, or writes a word (R90, R91). -/
inductive BusOp where
  | read
  | write (w : Word)
  deriving DecidableEq, Repr

/-- One host access to the window: `off` is `addr - BASE` (R80). -/
structure Access where
  off   : BitVec 12
  width : Width
  op    : BusOp
  deriving DecidableEq, Repr

/-- What happens next, as the scheduler and the platform choose it (R11, R94, R300). -/
inductive Input where
  /-- the engine's turn: the latency of the running command is over (R11, R123) -/
  | engineTurn
  /-- the block takes a host access (R94) -/
  | access (a : Access)
  /-- the reset input is asserted and released (R300) -/
  | hardReset
  deriving DecidableEq, Repr

/-- The host-side faults of the spec. The block goes on after one, so no step ends in `Outcome.fault`; the
fault is recorded as the response to the access (R101). -/
inductive Fault where
  /-- Raised by the bus port for an access that is not 32 bits wide or not aligned (R89, R101). Safe: the spec gives
  the response and says that no state changes. -/
  | busError
  deriving DecidableEq, Repr

/-- Why a step has no meaning. -/
inductive Refusal where
  /-- Raised by the arm of a command that is not modelled yet; there is no such arm. Safe: the machine stops. -/
  | notModelled (mnemonic : String)
  deriving DecidableEq, Repr

/-- The block's answer on the bus to a host access. -/
inductive Response where
  /-- the word a read returns (R90) -/
  | data (w : Word)
  /-- a write was taken, with whatever effect R91 gives it -/
  | written
  /-- the error response (R101) -/
  | fault (f : Fault)
  deriving DecidableEq, Repr

/-- What an aligned offset names (20_memory.md R81). A buffer window word `j` holds bytes `4j .. 4j+3`. -/
inductive Reg where
  | id
  | hwcfg
  | ctrl
  | cmd
  | status
  | textLen
  | byteLen
  | errInfo
  | result
  | convInfo
  | allow (i : Fin 8)
  | digest (i : Fin 8)
  | tb (j : Nat)
  | bb (j : Nat)
  | reserved
  deriving DecidableEq, Repr

/-- The two buffers. -/
inductive Buffer where
  | tb
  | bb
  deriving DecidableEq, Repr

/-- `raise Error(CODE, info)` (R17, R275). -/
structure Raise where
  code : Code
  info : Word
  deriving DecidableEq, Repr

/-- What a command's pseudocode leaves: the registers and buffers as written so far, and the `raise` that ended it,
or none where it ran to `complete()` (R17, R123). -/
structure Ran where
  arch   : Arch
  raised : Option Raise
  deriving DecidableEq, Repr

/-- The block with its two agents' pending actions. -/
structure State where
  /-- the build's parameters (R8, R9); `HWCFG` reads them (R32) -/
  cfg : Config
  /-- registers and buffers (R30) -/
  arch : Arch
  /-- engine state, with the accepted command word and its snapshot (R47) -/
  engine : Engine
  /-- the model's own: the number of the next unused draw of a free value -/
  draws : Nat
  /-- the model's own: the actions still to come, first one next -/
  inputs : List Input
  /-- the model's own: the answer to the host's last access, none before the first -/
  response : Option Response
  deriving DecidableEq, Repr

/-- R50: every register at its reset value; the buffers are the caller's. -/
def Arch.reset (tb bb : Memory) : Arch where
  ie := false
  done := false
  ovr := false
  err := .none
  textLen := 0
  byteLen := 0
  errInfo := 0
  result := 0
  convInfo := 0
  allow := { w0 := 1, w1 := 0, w2 := 0, w3 := 0, w4 := 0, w5 := 0, w6 := 0, w7 := 0 }
  digest := { w0 := 0, w1 := 0, w2 := 0, w3 := 0, w4 := 0, w5 := 0, w6 := 0, w7 := 0 }
  tb := tb
  bb := bb

/-- R50, R300: the default build after a hardware reset. Both buffers are unspecified, under draws 0 and 1. -/
def State.reset : State where
  cfg := Config.default
  arch := Arch.reset { cells := [], draw := 0 } { cells := [], draw := 1 }
  engine := .idle
  draws := 2
  inputs := []
  response := none

end Sys2Proof.Machine
end

