-- ==== Sys2Proof/Machine/Ops.lean ====
section
/-! DEFINITION. The named operations over buffers, register banks and the engine: reading and writing a buffer,
byte order, the start of a command and its completion (with or without a `raise`, 30_encoding.md R120 to R124). -/

namespace Sys2Proof.Machine

/-! ### Buffers -/

/-- The stored byte of index `i`, none where nothing is stored. -/
def findCell (i : Nat) : List Host.Cell → Option Byte
  | [] => none
  | (j, b) :: rest => if i = j then some b else findCell i rest

/-- Store byte `b` at index `i`, keeping the indexes strictly rising. -/
def insertCell (i : Nat) (b : Byte) : List Host.Cell → List Host.Cell
  | [] => [(i, b)]
  | (j, c) :: rest =>
    if i < j then (i, b) :: (j, c) :: rest
    else if i = j then (i, b) :: rest
    else (j, c) :: insertCell i b rest

/-- The indexes of `cells` rise strictly, from `lo` on, and stay below `cap`. -/
def cellsRise (cap lo : Nat) : List Host.Cell → Bool
  | [] => true
  | (j, _) :: rest => decide (lo ≤ j) && decide (j < cap) && cellsRise cap (j + 1) rest

/-- The canonical form of a buffer of `cap` bytes. No stored byte can equal what an unlisted index reads as, for
that is a free value and no value of it is known. -/
def Memory.wf (cap : Nat) (m : Memory) : Bool := cellsRise cap 0 m.cells

/-- `TB[i]` or `BB[i]` (R17): the byte written there, or the free value of an unspecified byte (R306, U1). -/
def Memory.read (m : Memory) (i : Nat) : Byte :=
  match findCell i m.cells with
  | some b => b
  | none => Config.freeByte m.draw i

/-- `TB[i] <- b` or `BB[i] <- b`. -/
def Memory.write (m : Memory) (i : Nat) (b : Byte) : Memory := { m with cells := insertCell i b m.cells }

/-- `TB[a .. a+n)` or `BB[a .. a+n)` (R15, R17). -/
def Memory.readRange (m : Memory) (a : Nat) : Nat → List Byte
  | 0 => []
  | n + 1 => m.read a :: m.readRange (a + 1) n

/-- `TB[a .. a+len(bs)) <- bs` or the same of `BB`; every other byte keeps its value (R325). -/
def Memory.writeRange (m : Memory) (a : Nat) : List Byte → Memory
  | [] => m
  | b :: bs => (m.write a b).writeRange (a + 1) bs

/-- R306: byte `i` has been written since the contents were last unspecified. -/
def Memory.written (m : Memory) (i : Nat) : Bool := (findCell i m.cells).isSome

/-- A buffer whose every byte is unspecified, under draw `d` (R50, R303). -/
def Memory.unspecified (d : Nat) : Memory := { cells := [], draw := d }

/-! ### Byte order -/

/-- R85: four bytes packed little-endian into a bus word, the first in bits `[7:0]`. -/
def packWord (b0 b1 b2 b3 : Byte) : Word :=
  b0.setWidth 32 ||| b1.setWidth 32 <<< 8 ||| b2.setWidth 32 <<< 16 ||| b3.setWidth 32 <<< 24

/-- R85: byte `k` of a bus word, bits `[8k+7:8k]`. -/
def byteOf (w : Word) (k : Nat) : Byte := w.extractLsb' (8 * k) 8

/-- R83 to R85: the word at window word `j` of a buffer. -/
def Memory.readWord (m : Memory) (j : Nat) : Word :=
  packWord (m.read (4 * j)) (m.read (4 * j + 1)) (m.read (4 * j + 2)) (m.read (4 * j + 3))

/-- R85: a host write of `w` at window word `j` sets `A[4j+k] <- w[8k+7:8k]` for `k = 0..3`. -/
def Memory.writeWord (m : Memory) (j : Nat) (w : Word) : Memory :=
  m.writeRange (4 * j) [byteOf w 0, byteOf w 1, byteOf w 2, byteOf w 3]

/-! ### Register banks -/

/-- Register `i` of a bank. -/
def Bank.get (b : Bank) : Fin 8 → Word
  | 0 => b.w0
  | 1 => b.w1
  | 2 => b.w2
  | 3 => b.w3
  | 4 => b.w4
  | 5 => b.w5
  | 6 => b.w6
  | 7 => b.w7

/-- The bank with register `i` set to `w`. -/
def Bank.set (b : Bank) (i : Fin 8) (w : Word) : Bank :=
  match i with
  | 0 => { b with w0 := w }
  | 1 => { b with w1 := w }
  | 2 => { b with w2 := w }
  | 3 => { b with w3 := w }
  | 4 => { b with w4 := w }
  | 5 => { b with w5 := w }
  | 6 => { b with w6 := w }
  | 7 => { b with w7 := w }

/-- R44: word `i` of a 32-byte digest, packed little-endian. -/
def digestWord (d : List Byte) (i : Nat) : Word :=
  packWord (d.getD (4 * i) 0) (d.getD (4 * i + 1) 0) (d.getD (4 * i + 2) 0) (d.getD (4 * i + 3) 0)

/-- R44: `x[DIGEST] <- d`, eight words. -/
def packDigest (d : List Byte) : Bank where
  w0 := digestWord d 0
  w1 := digestWord d 1
  w2 := digestWord d 2
  w3 := digestWord d 3
  w4 := digestWord d 4
  w5 := digestWord d 5
  w6 := digestWord d 6
  w7 := digestWord d 7

/-! ### The engine -/

/-- `STATUS.BUSY` (R35): 1 iff the engine state is `Busy` (R47). -/
def State.busy (s : State) : Bool :=
  match s.engine with
  | .idle => false
  | .busy _ _ => true

/-- The command word the engine holds (R34, R98), none while Idle. -/
def State.fetch (s : State) : Option Word :=
  match s.engine with
  | .idle => none
  | .busy w _ => some w

/-- What a command's pseudocode runs on: the snapshot taken at its start (R7, R18, R123). For a state whose engine is
Idle, where no command runs, the registers and buffers as they are. -/
def State.source (s : State) : Arch :=
  match s.engine with
  | .idle => s.arch
  | .busy _ snapshot => snapshot

/-- The registers just after the start actions of R121. -/
def Arch.started (a : Arch) : Arch := { a with done := false, err := .none }

/-- R120, R121: start command `w`. The snapshot is the state just after the start actions. -/
def State.start (s : State) (w : Word) : State :=
  { s with arch := s.arch.started, engine := .busy w s.arch.started }

/-- `complete()` (R17). -/
def Ran.complete (a : Arch) : Ran := { arch := a, raised := none }

/-- `raise Error(CODE, info)` (R275): the writes made before it, in `a`, stand. -/
def Ran.fail (a : Arch) (r : Raise) : Ran := { arch := a, raised := some r }

/-- R245: run the next stage; a `raise` in an earlier one ends the command. -/
def Ran.andThen (r : Ran) (stage : Arch → Ran) : Ran :=
  match r.raised with
  | none => stage r.arch
  | some _ => r

/-- R123: the completion code, `NONE` for `complete()`. -/
def Ran.code (r : Ran) : Code :=
  match r.raised with
  | none => .none
  | some e => e.code

/-- R123: the detail word, 0 for `complete()`. -/
def Ran.info (r : Ran) : Word :=
  match r.raised with
  | none => 0
  | some e => e.info

/-- R123, R124: completion. All writes of the command appear together with `BUSY <- 0`, `DONE <- 1`, the code and
the detail word. `CTRL.IE` and `STATUS.OVR`, which no command writes, keep what the host made of them meanwhile. -/
def State.finish (s : State) (r : Ran) : State :=
  { s with
    arch := { r.arch with
      ie := s.arch.ie
      ovr := s.arch.ovr
      done := true
      err := r.code
      errInfo := r.info }
    engine := .idle }

/-- R114, R272: an illegal word completes with `BAD_CMD` and the word itself, and runs no pseudocode. -/
def State.finishBadCmd (s : State) (w : Word) : State :=
  s.finish (Ran.fail s.source { code := .badCmd, info := w })

end Sys2Proof.Machine
end

