-- ==== Sys2Proof/Machine/Flags.lean ====
section
/-! DEFINITION. Flags and field layouts: `STATUS`, `CTRL`, `HWCFG`, `RESULT`, the completion codes and the detail word
of each (10_state.md R32 to R43; 60_exceptions.md R271, R272), and the interrupt output (R49). -/

namespace Sys2Proof.Machine

/-- R271: the number of a completion code in `STATUS.ERR`. -/
def Code.bits : Code → BitVec 4
  | .none => 0
  | .badSymbol => 1
  | .digitRange => 2
  | .checksum => 3
  | .length => 4
  | .version => 5
  | .overflow => 6
  | .lenRange => 7
  | .badCmd => 8

/-- A flag as a word. -/
def flagWord (b : Bool) : Word := (BitVec.ofBool b).setWidth 32

/-- R35: `STATUS` reads `BUSY[0]`, `DONE[1]`, `OVR[2]`, `ERR[7:4]`, every other bit 0. -/
def statusWord (busy done ovr : Bool) (err : Code) : Word :=
  flagWord busy ||| flagWord done <<< 1 ||| flagWord ovr <<< 2 ||| err.bits.setWidth 32 <<< 4

/-- R33: `CTRL` reads `IE[0]`; `SRST` and the reserved bits read 0. -/
def ctrlWord (ie : Bool) : Word := flagWord ie

/-- R31: `ID`. -/
def idWord : Word := 0x0B58C0DE

/-- R32: `HWCFG` reads `TEXT_CAP[8:0]`, `BYTE_CAP[24:16]` and `CMDSET_REV[31:28] = 1`. -/
def hwcfgWord (c : Config) : Word :=
  (BitVec.ofNat 9 c.textCap).setWidth 32 ||| (BitVec.ofNat 9 c.byteCap).setWidth 32 <<< 16 ||| (1 : Word) <<< 28

/-- R49: `irq = x[CTRL].IE & x[STATUS].DONE`. -/
def State.irq (s : State) : Bool := s.arch.ie && s.arch.done

/-- R240: `RESULT` after a success, `VALID = 1` and `VERSION = v`. -/
def resultWord (v : Byte) : Word := (1 : Word) <<< 8 ||| v.setWidth 32

/-- R41: `RESULT.VALID`. -/
def resultValid (w : Word) : Bool := w.getLsbD 8

/-- R41: `RESULT.VERSION`. -/
def resultVersion (w : Word) : Byte := w.extractLsb' 0 8

/-- R43: version byte `v` is in the allow-list. -/
def allowed (allow : Bank) (v : Byte) : Bool :=
  (allow.get (Fin.ofNat 8 (v.toNat / 32))).getLsbD (v.toNat % 32)

/-- R272 `LEN_RANGE`: the offending `LEN`, bit 16 telling `BYTE_LEN` from `TEXT_LEN`. -/
def lenRangeInfo (which : Buffer) (n : BitVec 16) : Word :=
  match which with
  | .tb => n.setWidth 32
  | .bb => (1 : Word) <<< 16 ||| n.setWidth 32

/-- R272 `BAD_SYMBOL`: index and byte of the first bad symbol. -/
def badSymbolInfo (i : Nat) (c : Byte) : Word := c.setWidth 32 <<< 16 ||| BitVec.ofNat 32 i

/-- R272 `VERSION`: the version byte in bits `[23:16]`. -/
def versionInfo (v : Byte) : Word := v.setWidth 32 <<< 16

/-- R272 `CHECKSUM`, `LENGTH`, `OVERFLOW`: a length in bits `[15:0]`. -/
def lengthInfo (n : Nat) : Word := BitVec.ofNat 32 n

end Sys2Proof.Machine
end

