-- ==== Sys2Proof/Machine/Bus.lean ====
section
/-! DEFINITION. The register window: host reads and writes, bus errors, soft and hardware reset (20_memory.md R80 to
R101; 70_reset_and_hazards.md R300 to R321). -/

namespace Sys2Proof.Machine

/-- R80: the offset of a bus address, none for an address outside the window. -/
def busOffset (addr : Nat) : Option (BitVec 12) :=
  if Config.base ≤ addr ∧ addr < Config.base + 4096 then some (BitVec.ofNat 12 (addr - Config.base)) else none

/-- R81: what the word at an aligned offset is. -/
def regAt (off : BitVec 12) : Reg :=
  let o := off.toNat
  if o < 0x028 then
    match o / 4 with
    | 0 => .id
    | 1 => .hwcfg
    | 2 => .ctrl
    | 3 => .cmd
    | 4 => .status
    | 5 => .textLen
    | 6 => .byteLen
    | 7 => .errInfo
    | 8 => .result
    | _ => .convInfo
  else if o < 0x040 then .reserved
  else if o < 0x060 then .allow (Fin.ofNat 8 ((o - 0x040) / 4))
  else if o < 0x080 then .digest (Fin.ofNat 8 ((o - 0x060) / 4))
  else if o < 0x100 then .reserved
  else if o < 0x200 then .tb ((o - 0x100) / 4)
  else if o < 0x300 then .bb ((o - 0x200) / 4)
  else .reserved

/-- R90: the value a host read of a register or buffer word returns; 0 beyond a buffer's capacity (R83, R84). -/
def State.readReg (s : State) : Reg → Word
  | .id => idWord
  | .hwcfg => hwcfgWord s.cfg
  | .ctrl => ctrlWord s.arch.ie
  | .cmd => 0
  | .status => statusWord s.busy s.arch.done s.arch.ovr s.arch.err
  | .textLen => s.arch.textLen.setWidth 32
  | .byteLen => s.arch.byteLen.setWidth 32
  | .errInfo => s.arch.errInfo
  | .result => s.arch.result
  | .convInfo => s.arch.convInfo.setWidth 32
  | .allow i => s.arch.allow.get i
  | .digest i => s.arch.digest.get i
  | .tb j => if 4 * j < s.cfg.textCap then s.arch.tb.readWord j else 0
  | .bb j => if 4 * j < s.cfg.byteCap then s.arch.bb.readWord j else 0
  | .reserved => 0

/-- R90, R321: the registers and buffer words that read as an unspecified `u32` while Busy. -/
def hiddenWhileBusy (c : Config) : Reg → Bool
  | .id => false
  | .hwcfg => false
  | .ctrl => false
  | .cmd => false
  | .status => false
  | .textLen => true
  | .byteLen => true
  | .errInfo => true
  | .result => true
  | .convInfo => true
  | .allow _ => false
  | .digest _ => true
  | .tb j => decide (4 * j < c.textCap)
  | .bb j => decide (4 * j < c.byteCap)
  | .reserved => false

/-- `MemRead(off, 4)` (R90): the answer is a value, or a fresh free value (R321, U3). Nothing else changes (R92). -/
def State.hostRead (s : State) (off : BitVec 12) : State :=
  if s.busy && hiddenWhileBusy s.cfg (regAt off) then
    { s with response := some (.data (Config.freeWord s.draws)), draws := s.draws + 1 }
  else { s with response := some (.data (s.readReg (regAt off))) }

/-- R303: the buffer that the abort of command word `w` leaves unspecified. -/
def abortedBuffer (w : Word) : Option Buffer :=
  match decode w with
  | .ok .dec58 => some .bb
  | .ok .validate => some .bb
  | .ok .enc58 => some .tb
  | .ok .chkapp => some .bb
  | .ok .nop => none
  | .ok .hash2 => none
  | .ok .chkver => none
  | .ok .addr => none
  | .error _ => none

/-- The buffer, if any, that a soft reset leaves unspecified: that of the command it aborts (R303). -/
def State.clobbered (s : State) : Option Buffer :=
  match s.engine with
  | .idle => none
  | .busy w _ => abortedBuffer w

/-- R302, R303: soft reset. Registers take their reset values and the engine is Idle; the buffers keep their
contents, but for the destination of an aborted command, which is drawn anew. -/
def State.softReset (s : State) : State :=
  match s.clobbered with
  | none => { s with arch := Arch.reset s.arch.tb s.arch.bb, engine := .idle }
  | some .tb =>
    { s with
      arch := Arch.reset (Memory.unspecified s.draws) s.arch.bb
      engine := .idle
      draws := s.draws + 1 }
  | some .bb =>
    { s with
      arch := Arch.reset s.arch.tb (Memory.unspecified s.draws)
      engine := .idle
      draws := s.draws + 1 }

/-- R300, R301: hardware reset, one atomic step (D44): the table of R50, both buffers drawn anew, a running command
abandoned. -/
def State.hardReset (s : State) : State :=
  { s with
    arch := Arch.reset (Memory.unspecified s.draws) (Memory.unspecified (s.draws + 1))
    engine := .idle
    draws := s.draws + 2
    response := none }

/-- R91, R320: a host write to a locked register takes effect while Idle; while Busy it is ignored and sets
`STATUS.OVR`. -/
def State.lockedWrite (s : State) (f : Arch → Arch) : State :=
  if s.busy then { s with arch := { s.arch with ovr := true } } else { s with arch := f s.arch }

/-- R33: a write of `CTRL`: a soft reset when `SRST` is 1, which discards `IE`; otherwise `IE` is bit 0. -/
def State.writeCtrl (s : State) (w : Word) : State :=
  if w.getLsbD 1 then s.softReset else { s with arch := { s.arch with ie := w.getLsbD 0 } }

/-- R34, R120, R122: a write of `CMD` starts a command while Idle and is an overrun while Busy. -/
def State.writeCmd (s : State) (w : Word) : State :=
  if s.busy then { s with arch := { s.arch with ovr := true } } else s.start w

/-- R35: a write of `STATUS` clears `DONE` and `OVR` where the word has a 1, and changes nothing else. -/
def State.writeStatus (s : State) (w : Word) : State :=
  { s with
    arch := { s.arch with
      done := s.arch.done && !w.getLsbD 1
      ovr := s.arch.ovr && !w.getLsbD 2 } }

/-- R91: what a host write of word `w` does to the block. -/
def State.writeReg (s : State) (w : Word) : Reg → State
  | .id => s
  | .hwcfg => s
  | .ctrl => s.writeCtrl w
  | .cmd => s.writeCmd w
  | .status => s.writeStatus w
  | .textLen => s.lockedWrite fun a => { a with textLen := w.extractLsb' 0 16 }
  | .byteLen => s.lockedWrite fun a => { a with byteLen := w.extractLsb' 0 16 }
  | .errInfo => s
  | .result => s
  | .convInfo => s
  | .allow i => s.lockedWrite fun a => { a with allow := a.allow.set i w }
  | .digest _ => s
  | .tb j => if 4 * j < s.cfg.textCap then s.lockedWrite fun a => { a with tb := a.tb.writeWord j w } else s
  | .bb j => if 4 * j < s.cfg.byteCap then s.lockedWrite fun a => { a with bb := a.bb.writeWord j w } else s
  | .reserved => s

/-- `MemWrite(off, 4, w)` (R91), with the bus answer. -/
def State.hostWrite (s : State) (off : BitVec 12) (w : Word) : State :=
  { s.writeReg w (regAt off) with response := some .written }

/-- R89: the block accepts only 32-bit accesses at offsets that are multiples of 4. -/
def accepted (a : Access) : Bool := decide (a.width = .w32) && decide (a.off.toNat % 4 = 0)

/-- R89 to R91, R101: one host access. One that is not accepted gets the error response and changes no state. -/
def State.busAccess (s : State) (a : Access) : State :=
  if accepted a then
    match a.op with
    | .read => s.hostRead a.off
    | .write w => s.hostWrite a.off w
  else { s with response := some (.fault .busError) }

end Sys2Proof.Machine
end

