-- ==== Sys2Proof/Machine/Operands.lean ====
section
/-! DEFINITION. The implicit operands of the commands (30_encoding.md R111; 10_state.md R37 to R39): the text
`TB[0..TEXT_LEN)` and the bytes `BB[0..BYTE_LEN)`, each with its capacity check, which comes first (R273). -/

namespace Sys2Proof.Machine

/-- `TB[0..n)` with `n = TEXT_LEN.LEN`, or `LEN_RANGE` when `n > TEXT_CAP` (R38, R150). -/
def textOperand (c : Config) (a : Arch) : Except Raise (List Byte) :=
  if c.textCap < a.textLen.toNat then .error { code := .lenRange, info := lenRangeInfo .tb a.textLen }
  else .ok (a.tb.readRange 0 a.textLen.toNat)

/-- `BB[0..n)` with `n = BYTE_LEN.LEN`, or `LEN_RANGE` when `n > BYTE_CAP` (R39, R192). -/
def byteOperand (c : Config) (a : Arch) : Except Raise (List Byte) :=
  if c.byteCap < a.byteLen.toNat then .error { code := .lenRange, info := lenRangeInfo .bb a.byteLen }
  else .ok (a.bb.readRange 0 a.byteLen.toNat)

/-- Write a command's byte output: `BB[0..m) <- out` and `BYTE_LEN.LEN <- m` (R150); bytes from `m` on are kept. -/
def Arch.putBytes (a : Arch) (out : List Byte) : Arch :=
  { a with bb := a.bb.writeRange 0 out, byteLen := BitVec.ofNat 16 out.length }

/-- Write a command's text output: `TB[0..m) <- out` and `TEXT_LEN.LEN <- m` (R151); bytes from `m` on are kept. -/
def Arch.putText (a : Arch) (out : List Byte) : Arch :=
  { a with tb := a.tb.writeRange 0 out, textLen := BitVec.ofNat 16 out.length }

/-- `x[DIGEST] <- d` (R44). -/
def Arch.putDigest (a : Arch) (d : List Byte) : Arch := { a with digest := packDigest d }

end Sys2Proof.Machine
end

