-- ==== Sys2Proof/Machine/Sha256.lean ====
section
/-! DEFINITION. SHA-256 and double SHA-256 (41_hash.md R180 to R190). Message words and digest words are
big-endian inside the core (20_memory.md R87). -/

namespace Sys2Proof.Machine.Sha

/-- R182: `Ch`. -/
def ch (x y z : Word) : Word := (x &&& y) ^^^ (~~~x &&& z)

/-- R182: `Maj`. -/
def maj (x y z : Word) : Word := (x &&& y) ^^^ (x &&& z) ^^^ (y &&& z)

/-- R182: `Sigma0`. -/
def bigSigma0 (x : Word) : Word := x.rotateRight 2 ^^^ x.rotateRight 13 ^^^ x.rotateRight 22

/-- R182: `Sigma1`. -/
def bigSigma1 (x : Word) : Word := x.rotateRight 6 ^^^ x.rotateRight 11 ^^^ x.rotateRight 25

/-- R182: `sigma0`. -/
def smallSigma0 (x : Word) : Word := x.rotateRight 7 ^^^ x.rotateRight 18 ^^^ (x >>> 3)

/-- R182: `sigma1`. -/
def smallSigma1 (x : Word) : Word := x.rotateRight 17 ^^^ x.rotateRight 19 ^^^ (x >>> 10)

/-- R183: the round constants. -/
def roundConstants : List Word :=
  [0x428a2f98, 0x71374491, 0xb5c0fbcf, 0xe9b5dba5, 0x3956c25b, 0x59f111f1, 0x923f82a4, 0xab1c5ed5] ++
  [0xd807aa98, 0x12835b01, 0x243185be, 0x550c7dc3, 0x72be5d74, 0x80deb1fe, 0x9bdc06a7, 0xc19bf174] ++
  [0xe49b69c1, 0xefbe4786, 0x0fc19dc6, 0x240ca1cc, 0x2de92c6f, 0x4a7484aa, 0x5cb0a9dc, 0x76f988da] ++
  [0x983e5152, 0xa831c66d, 0xb00327c8, 0xbf597fc7, 0xc6e00bf3, 0xd5a79147, 0x06ca6351, 0x14292967] ++
  [0x27b70a85, 0x2e1b2138, 0x4d2c6dfc, 0x53380d13, 0x650a7354, 0x766a0abb, 0x81c2c92e, 0x92722c85] ++
  [0xa2bfe8a1, 0xa81a664b, 0xc24b8b70, 0xc76c51a3, 0xd192e819, 0xd6990624, 0xf40e3585, 0x106aa070] ++
  [0x19a4c116, 0x1e376c08, 0x2748774c, 0x34b0bcb5, 0x391c0cb3, 0x4ed8aa4a, 0x5b9cca4f, 0x682e6ff3] ++
  [0x748f82ee, 0x78a5636f, 0x84c87814, 0x8cc70208, 0x90befffa, 0xa4506ceb, 0xbef9a3f7, 0xc67178f2]

/-- R184: `H(0)`. -/
def initial : Bank where
  w0 := 0x6a09e667
  w1 := 0xbb67ae85
  w2 := 0x3c6ef372
  w3 := 0xa54ff53a
  w4 := 0x510e527f
  w5 := 0x9b05688c
  w6 := 0x1f83d9ab
  w7 := 0x5be0cd19

/-- R189: `be32`, the 4 bytes of a word, most significant first. -/
def be32 (x : Word) : List Byte :=
  [x.extractLsb' 24 8, x.extractLsb' 16 8, x.extractLsb' 8 8, x.extractLsb' 0 8]

/-- R185: `be64`, the 8 bytes of a number, most significant first. -/
def be64 (x : Nat) : List Byte := be32 (BitVec.ofNat 32 (x / 2 ^ 32)) ++ be32 (BitVec.ofNat 32 x)

/-- R185: the zero bytes of the padding, `z = (55 - L) mod 64`. -/
def padZeros (len : Nat) : Nat := (119 - len % 64) % 64

/-- R185: `pad`. -/
def pad (m : List Byte) : List Byte :=
  m ++ [0x80] ++ List.replicate (padZeros m.length) 0 ++ be64 (8 * m.length)

/-- R186: the big-endian words of a byte sequence. -/
def bigEndianWords : List Byte → List Word
  | b0 :: b1 :: b2 :: b3 :: rest =>
    (b0.setWidth 32 <<< 24 ||| b1.setWidth 32 <<< 16 ||| b2.setWidth 32 <<< 8 ||| b3.setWidth 32)
      :: bigEndianWords rest
  | _ => []

/-- R187: `n` further schedule words, the latest word first: `W[j-2]`, `W[j-7]`, `W[j-15]` and `W[j-16]` are
entries 1, 6, 14 and 15. -/
def extendSchedule : (n : Nat) → List Word → List Word
  | 0, latest => latest
  | n + 1, latest =>
    extendSchedule n
      ((smallSigma1 (latest.getD 1 0) + latest.getD 6 0 + smallSigma0 (latest.getD 14 0) + latest.getD 15 0) :: latest)

/-- R187: `W[0..64)` of a block's 16 message words. -/
def schedule (m : List Word) : List Word := (extendSchedule 48 m.reverse).reverse

/-- R188: one round on `(a, .., h)` with `K[j]` and `W[j]`. -/
def round (v : Bank) (k w : Word) : Bank :=
  let t1 := v.w7 + bigSigma1 v.w4 + ch v.w4 v.w5 v.w6 + k + w
  let t2 := bigSigma0 v.w0 + maj v.w0 v.w1 v.w2
  { w0 := t1 + t2, w1 := v.w0, w2 := v.w1, w3 := v.w2, w4 := v.w3 + t1, w5 := v.w4, w6 := v.w5, w7 := v.w6 }

/-- R188: the rounds of one block, over its constants and schedule. -/
def rounds : List Word → List Word → Bank → Bank
  | k :: ks, w :: ws, v => rounds ks ws (round v k w)
  | _, _, v => v

/-- R188: the sums at the end of a block. -/
def addBank (a b : Bank) : Bank where
  w0 := a.w0 + b.w0
  w1 := a.w1 + b.w1
  w2 := a.w2 + b.w2
  w3 := a.w3 + b.w3
  w4 := a.w4 + b.w4
  w5 := a.w5 + b.w5
  w6 := a.w6 + b.w6
  w7 := a.w7 + b.w7

/-- R188: the compression of one 64-byte block. -/
def compress (h : Bank) (block : List Byte) : Bank :=
  addBank (rounds roundConstants (schedule (bigEndianWords block)) h) h

/-- R185: the number of blocks, `N = (L + 8) div 64 + 1`. -/
def blockCount (len : Nat) : Nat := (len + 8) / 64 + 1

/-- R186, R188: the blocks in order, 64 bytes each. -/
def blocks : (n : Nat) → List Byte → Bank → Bank
  | 0, _, h => h
  | n + 1, p, h => blocks n (p.drop 64) (compress h (p.take 64))

/-- R189: the digest bytes of the final hash value. -/
def bankBytes (h : Bank) : List Byte :=
  be32 h.w0 ++ be32 h.w1 ++ be32 h.w2 ++ be32 h.w3 ++ be32 h.w4 ++ be32 h.w5 ++ be32 h.w6 ++ be32 h.w7

/-- R180 to R189: `SHA256`. -/
def sha256 (m : List Byte) : List Byte := bankBytes (blocks (blockCount m.length) (pad m) initial)

/-- R190: `dsha(s) = SHA256(SHA256(s))`. -/
def dsha (s : List Byte) : List Byte := sha256 (sha256 s)

end Sys2Proof.Machine.Sha
end

