-- ==== Sys2Proof/Machine/Check.lean ====
section
/-! DEFINITION. CHKVER and CHKAPP (42_check.md R220 to R223). -/

namespace Sys2Proof.Machine

/-- R223: the byte comparator `eq4`. -/
def eq4 (a b : List Byte) : Bool := decide (a.length = 4) && decide (b.length = 4) && decide (a = b)

/-- R220, R221: the payload length, all but the last 4 bytes; 0 for fewer than 4 bytes. -/
def payloadLength (n : Nat) : Nat := if 4 ≤ n then n - 4 else 0

/-- R220: the body of CHKVER. `DIGEST` is written before the comparison, so it stands after a mismatch. -/
def chkverBody (c : Config) (a : Arch) : Ran :=
  match byteOperand c a with
  | .error r => Ran.fail a r
  | .ok bytes =>
    let p := payloadLength bytes.length
    let d := Sha.dsha (bytes.take p)
    if eq4 (d.take 4) (bytes.drop p) then
      Ran.complete { a.putDigest d with byteLen := BitVec.ofNat 16 p }
    else Ran.fail (a.putDigest d) { code := .checksum, info := lengthInfo bytes.length }

/-- R222: the body of CHKAPP. -/
def chkappBody (c : Config) (a : Arch) : Ran :=
  match byteOperand c a with
  | .error r => Ran.fail a r
  | .ok bytes =>
    let n := bytes.length
    if c.byteCap < n + 4 then Ran.fail a { code := .overflow, info := lengthInfo (n + 4) }
    else
      let d := Sha.dsha bytes
      Ran.complete
        { a.putDigest d with bb := a.bb.writeRange n (d.take 4), byteLen := BitVec.ofNat 16 (n + 4) }

/-- R220: CHKVER. -/
def execChkver (s : State) : Host.Outcome State Fault Refusal := .next (s.finish (chkverBody s.cfg s.source))

/-- R222: CHKAPP. -/
def execChkapp (s : State) : Host.Outcome State Fault Refusal := .next (s.finish (chkappBody s.cfg s.source))

end Sys2Proof.Machine
end

