-- ==== Sys2Proof/Machine/Radix.lean ====
section
/-! DEFINITION. The radix converter's pure functions: the alphabet ROM and the two conversion primitives
(40_converter.md R140 to R146). Arithmetic is exact on natural numbers (00_scope.md R12). -/

namespace Sys2Proof.Machine

/-- R140: the alphabet ROM, digit 0 first. -/
def alphabet : List Byte :=
  [0x31, 0x32, 0x33, 0x34, 0x35, 0x36, 0x37, 0x38, 0x39] ++
  [0x41, 0x42, 0x43, 0x44, 0x45, 0x46, 0x47, 0x48] ++
  [0x4A, 0x4B, 0x4C, 0x4D, 0x4E] ++
  [0x50, 0x51, 0x52, 0x53, 0x54, 0x55, 0x56, 0x57, 0x58, 0x59, 0x5A] ++
  [0x61, 0x62, 0x63, 0x64, 0x65, 0x66, 0x67, 0x68, 0x69, 0x6A, 0x6B] ++
  [0x6D, 0x6E, 0x6F, 0x70, 0x71, 0x72, 0x73, 0x74, 0x75, 0x76, 0x77, 0x78, 0x79, 0x7A]

/-- R141: the digit of an alphabet byte, none for the 198 other bytes. -/
def lookup58 (c : Byte) : Option Nat :=
  let n := c.toNat
  if 0x31 ≤ n ∧ n ≤ 0x39 then some (n - 0x31)
  else if 0x41 ≤ n ∧ n ≤ 0x48 then some (n - 0x38)
  else if 0x4A ≤ n ∧ n ≤ 0x4E then some (n - 0x39)
  else if 0x50 ≤ n ∧ n ≤ 0x5A then some (n - 0x3A)
  else if 0x61 ≤ n ∧ n ≤ 0x6B then some (n - 0x40)
  else if 0x6D ≤ n ∧ n ≤ 0x7A then some (n - 0x41)
  else none

/-- R142: the symbol of a digit below 58; it is applied to no other digit (R152). -/
def sym58 (d : Nat) : Byte := alphabet.getD d 0

/-- R142: every byte is its own digit. -/
def lookup256 (c : Byte) : Option Nat := some c.toNat

/-- R142: the byte of a digit below 256. -/
def sym256 (d : Nat) : Byte := BitVec.ofNat 8 d

/-- R143: `Ok(v, k)` with the value and the leading-zero count, or `Err(i, c)` with the first offending symbol. -/
inductive Parsed where
  | ok (v k : Nat)
  | err (i : Nat) (c : Byte)
  deriving DecidableEq, Repr

/-- R143: the loop from symbol `i` on, with `v` and `k` accumulated so far. -/
def toIntegerFrom (b : Nat) (lookup : Byte → Option Nat) : (s : List Byte) → (i v k : Nat) → Parsed
  | [], _, v, k => .ok v k
  | c :: rest, i, v, k =>
    match lookup c with
    | none => .err i c
    | some d => toIntegerFrom b lookup rest (i + 1) (v * b + d) (if v * b + d = 0 then k + 1 else k)

/-- R143: `to_integer`. -/
def toInteger (b : Nat) (lookup : Byte → Option Nat) (s : List Byte) : Parsed := toIntegerFrom b lookup s 0 0 0

/-- R146: the digits of `v`, least significant first. Each division by `b >= 2` takes at least one of the
`fuel` bits `v` has, so `fuel = log2 v + 1` never runs out. -/
def digitsUp (b : Nat) : (fuel v : Nat) → List Nat
  | 0, _ => []
  | fuel + 1, v => if v = 0 then [] else v % b :: digitsUp b fuel (v / b)

/-- R146: `digits_B(v)`, most significant first; empty for 0. -/
def digits (b v : Nat) : List Nat := (digitsUp b (Nat.log2 v + 1) v).reverse

/-- R146: `from_integer`. The remainders come least significant first, the zero symbols follow, and the whole
sequence is reversed. -/
def fromInteger (v k b : Nat) (sym : Nat → Byte) : List Byte :=
  ((digitsUp b (Nat.log2 v + 1) v).map sym ++ List.replicate k (sym 0)).reverse

end Sys2Proof.Machine
end

