-- ==== Sys2Proof/Machine/Converter.lean ====
section
/-! DEFINITION. DEC58 and ENC58 (40_converter.md R150, R151). -/

namespace Sys2Proof.Machine

/-- R150: the body of DEC58, on the registers and buffers `a`. -/
def dec58Body (c : Config) (a : Arch) : Ran :=
  match textOperand c a with
  | .error r => Ran.fail a r
  | .ok text =>
    match toInteger 58 lookup58 text with
    | .err i b => Ran.fail a { code := .badSymbol, info := badSymbolInfo i b }
    | .ok v k => Ran.complete { a.putBytes (fromInteger v k 256 sym256) with convInfo := BitVec.ofNat 16 k }

/-- R151: the body of ENC58, once `from_integer` has given `out` and `to_integer` the count `k`. -/
def enc58Store (c : Config) (a : Arch) (out : List Byte) (k : Nat) : Ran :=
  if c.textCap < out.length then Ran.fail a { code := .overflow, info := lengthInfo out.length }
  else Ran.complete { a.putText out with convInfo := BitVec.ofNat 16 k }

/-- R151: the body of ENC58. `to_integer` cannot fail, since `lookup256` is total; that arm is R143's own. -/
def enc58Body (c : Config) (a : Arch) : Ran :=
  match byteOperand c a with
  | .error r => Ran.fail a r
  | .ok bytes =>
    match toInteger 256 lookup256 bytes with
    | .err i b => Ran.fail a { code := .badSymbol, info := badSymbolInfo i b }
    | .ok v k => enc58Store c a (fromInteger v k 58 sym58) k

/-- R150: DEC58. -/
def execDec58 (s : State) : Host.Outcome State Fault Refusal := .next (s.finish (dec58Body s.cfg s.source))

/-- R151: ENC58. -/
def execEnc58 (s : State) : Host.Outcome State Fault Refusal := .next (s.finish (enc58Body s.cfg s.source))

end Sys2Proof.Machine
end

