-- ==== Sys2Proof/Machine/Address.lean ====
section
/-! DEFINITION. ADDR and VALIDATE (43_address.md R240 to R249). -/

namespace Sys2Proof.Machine

/-- R240, R245: `x[RESULT] <- 0`. -/
def Arch.clearResult (a : Arch) : Arch := { a with result := 0 }

/-- R240, R242: the body of ADDR after its first line. -/
def addrChecks (c : Config) (a : Arch) : Ran :=
  match byteOperand c a with
  | .error r => Ran.fail a r
  | .ok bytes =>
    if bytes.length ≠ 21 then Ran.fail a { code := .length, info := lengthInfo bytes.length }
    else
      let v := a.bb.read 0
      if allowed a.allow v then Ran.complete { a with result := resultWord v }
      else Ran.fail a { code := .version, info := versionInfo v }

/-- R240: the body of ADDR. -/
def addrBody (c : Config) (a : Arch) : Ran := addrChecks c a.clearResult

/-- R245: the body of VALIDATE: the bodies of DEC58, of CHKVER and of ADDR after its first line, in turn. -/
def validateBody (c : Config) (a : Arch) : Ran :=
  ((dec58Body c a.clearResult).andThen (chkverBody c)).andThen (addrChecks c)

/-- R240: ADDR. -/
def execAddr (s : State) : Host.Outcome State Fault Refusal := .next (s.finish (addrBody s.cfg s.source))

/-- R245: VALIDATE. -/
def execValidate (s : State) : Host.Outcome State Fault Refusal := .next (s.finish (validateBody s.cfg s.source))

end Sys2Proof.Machine
end

