-- ==== Sys2Proof/Machine/Control.lean ====
section
/-! DEFINITION. NOP (44_control.md R260). -/

namespace Sys2Proof.Machine

/-- R260: NOP is `complete()` alone. -/
def execNop (s : State) : Host.Outcome State Fault Refusal := .next (s.finish (Ran.complete s.source))

end Sys2Proof.Machine
end

