-- ==== Sys2Proof/Machine/Hash.lean ====
section
/-! DEFINITION. HASH2 (41_hash.md R192). -/

namespace Sys2Proof.Machine

/-- R192: the body of HASH2. -/
def hash2Body (c : Config) (a : Arch) : Ran :=
  match byteOperand c a with
  | .error r => Ran.fail a r
  | .ok bytes => Ran.complete (a.putDigest (Sha.dsha bytes))

/-- R192: HASH2. -/
def execHash2 (s : State) : Host.Outcome State Fault Refusal := .next (s.finish (hash2Body s.cfg s.source))

end Sys2Proof.Machine
end

