-- ==== Sys2Proof/Machine/Dispatch.lean ====
section
/-! DEFINITION. One arm per command: each is one call of its meaning (30_encoding.md R123). -/

namespace Sys2Proof.Machine

/-- R123: the engine completes the command `i`. -/
def exec (i : Instr) (s : State) : Host.Outcome State Fault Refusal :=
  match i with
  | .nop => Sys2Proof.Machine.execNop s
  | .dec58 => Sys2Proof.Machine.execDec58 s
  | .enc58 => Sys2Proof.Machine.execEnc58 s
  | .hash2 => Sys2Proof.Machine.execHash2 s
  | .chkver => Sys2Proof.Machine.execChkver s
  | .chkapp => Sys2Proof.Machine.execChkapp s
  | .addr => Sys2Proof.Machine.execAddr s
  | .validate => Sys2Proof.Machine.execValidate s

end Sys2Proof.Machine
end

