-- ==== Sys2Proof/Machine/Step.lean ====
section
/-! DEFINITION. One step: the next pending action of the scheduler or the host happens (00_scope.md R6, R11; 20_memory.md
R94). With no action pending the engine has its turn, so a started command always completes (R331). -/

namespace Sys2Proof.Machine

/-- R123: the engine's turn. A running command completes; an idle engine does nothing. -/
def engineTurn (s : State) : Host.Outcome State Fault Refusal :=
  match s.fetch with
  | none => .next s
  | some w =>
    match decode w with
    | .ok i => exec i s
    | .error _ => .next (s.finishBadCmd w)

/-- One action. -/
def act (s : State) : Input → Host.Outcome State Fault Refusal
  | .engineTurn => engineTurn s
  | .access a => .next (s.busAccess a)
  | .hardReset => .next s.hardReset

/-- One step of the block. -/
def step (s : State) : Host.Outcome State Fault Refusal :=
  match s.inputs with
  | [] => engineTurn s
  | x :: rest => act { s with inputs := rest } x

/-- `s` with the command word of a table row accepted (R120) and the engine's turn next, so that the very next step
runs that command. -/
def State.withFetchWord (s : State) (nbits w : Nat) : State :=
  { s.start (BitVec.ofNat 32 (tableWord nbits w)) with inputs := .engineTurn :: s.inputs }

end Sys2Proof.Machine
end

