-- ==== Sys2Proof/Safety.lean ====
section
/-! DEFINITION. The terms claims use: the invariant of the block, host accesses that abort nothing, operands the host
has written, and DKS's address check as one pure function (43_address.md R242, R245, R248). -/

namespace Sys2Proof.Machine

/-- R18, R320: while a command runs, the registers and buffers are those of its snapshot, but for `CTRL.IE` and
`STATUS.OVR`, which the host may change; `DONE` and `ERR` are clear since the start (R121). -/
def State.Coherent (s : State) : Prop :=
  match s.engine with
  | .idle => True
  | .busy _ snapshot =>
    s.arch = { snapshot with ie := s.arch.ie, ovr := s.arch.ovr } ∧ snapshot.done = false ∧ snapshot.err = .none

/-- What every reachable register file satisfies: both buffers are in canonical form within their capacities, code 2 is
never produced (R152), and `RESULT` is 0 or a success with its reserved bits 0 (R41, R240). -/
def Arch.Ok (c : Config) (a : Arch) : Prop :=
  a.tb.wf c.textCap = true ∧ a.bb.wf c.byteCap = true ∧ a.err ≠ .digitRange ∧
    (a.result = 0 ∨ a.result = resultWord (resultVersion a.result))

/-- The draws behind the two buffers are distinct and already used, so that a new draw is a fresh one (U1, U4). -/
def State.DrawsFresh (s : State) : Prop :=
  s.arch.tb.draw < s.draws ∧ s.arch.bb.draw < s.draws ∧ s.arch.tb.draw ≠ s.arch.bb.draw

/-- R40: while Idle, code `NONE` goes with `ERR_INFO = 0`. -/
def State.InfoMatches (s : State) : Prop := s.busy = false → s.arch.err = .none → s.arch.errInfo = 0

/-- The invariant of the block. -/
structure State.Inv (s : State) : Prop where
  build    : s.cfg.Valid
  arch     : s.arch.Ok s.cfg
  coherent : s.Coherent
  draws    : s.DrawsFresh
  info     : s.InfoMatches

/-- R302: the access is a soft reset, a write of `CTRL` with `SRST = 1`. -/
def softResets (a : Access) : Bool :=
  match a.op with
  | .read => false
  | .write w => accepted a && decide (regAt a.off = .ctrl) && w.getLsbD 1

/-- R306: the first `n` bytes of a buffer of `cap` bytes have all been written, or `n` is out of range, so that a command
examines none of them (R273). -/
def rangeWritten (cap n : Nat) (m : Memory) : Bool := decide (cap < n) || (List.range n).all m.written

/-- R306: no byte that the command examines is one nobody has written since its buffer was last unspecified. -/
def operandsWritten (c : Config) (a : Arch) : Instr → Bool
  | .nop => true
  | .dec58 => rangeWritten c.textCap a.textLen.toNat a.tb
  | .enc58 => rangeWritten c.byteCap a.byteLen.toNat a.bb
  | .hash2 => rangeWritten c.byteCap a.byteLen.toNat a.bb
  | .chkver => rangeWritten c.byteCap a.byteLen.toNat a.bb
  | .chkapp => rangeWritten c.byteCap a.byteLen.toNat a.bb
  | .addr => rangeWritten c.byteCap a.byteLen.toNat a.bb
  | .validate => rangeWritten c.textCap a.textLen.toNat a.tb

/-- The same registers and buffers with other draws behind the unwritten bytes. -/
def Arch.redraw (a : Arch) (dt db : Nat) : Arch :=
  { a with tb := { a.tb with draw := dt }, bb := { a.bb with draw := db } }

/-- The same state with other draws behind the unwritten bytes of its buffers. -/
def State.redraw (s : State) (dt db : Nat) : State :=
  { s with
    arch := s.arch.redraw dt db
    engine :=
      match s.engine with
      | .idle => .idle
      | .busy w snapshot => .busy w (snapshot.redraw dt db) }

/-- R149: `dec(s)`, the bytes a text over the alphabet stands for; none for a text with a symbol outside it. -/
def decodeText (text : List Byte) : Option (List Byte) :=
  match toInteger 58 lookup58 text with
  | .ok v k => some (fromInteger v k 256 sym256)
  | .err _ _ => none

/-- R149: `enc(t)`, the text a byte sequence stands for. -/
def encodeBytes (bytes : List Byte) : Option (List Byte) :=
  match toInteger 256 lookup256 bytes with
  | .ok v k => some (fromInteger v k 58 sym58)
  | .err _ _ => none

/-- R220, R221: there are at least 4 bytes, and the last 4 are the checksum of what precedes them. -/
abbrev checksumHolds (bytes : List Byte) : Prop :=
  4 ≤ bytes.length ∧ (Sha.dsha (bytes.take (bytes.length - 4))).take 4 = bytes.drop (bytes.length - 4)

/-- R242, R245: DKS's `decode_address` on a text, as the code it reports; the first failing stage decides. -/
def addressVerdict (allow : Bank) (text : List Byte) : Code :=
  match decodeText text with
  | none => .badSymbol
  | some bytes =>
    if ¬ checksumHolds bytes then .checksum
    else if bytes.length ≠ 25 then .length
    else if allowed allow (bytes.getD 0 0) then .none
    else .version

/-! ### Shapes of states and accesses that statements use -/

/-- `MemRead(off, 4)` as an access (R90). -/
def read32 (off : BitVec 12) : Access := { off := off, width := .w32, op := .read }

/-- `MemWrite(off, 4, w)` as an access (R91). -/
def write32 (off : BitVec 12) (w : Word) : Access := { off := off, width := .w32, op := .write w }

/-- The block's answer to a host read at `off`. -/
def State.answerTo (s : State) (off : BitVec 12) : Option Response := (s.busAccess (read32 off)).response

/-- The text operand `TB[0..TEXT_LEN)` (R111). -/
def Arch.text (a : Arch) : List Byte := a.tb.readRange 0 a.textLen.toNat

/-- The byte operand `BB[0..BYTE_LEN)` (R111). -/
def Arch.bytes (a : Arch) : List Byte := a.bb.readRange 0 a.byteLen.toNat

/-- `s` after a completion with this code and detail word and no other effect (R123). -/
def State.ended (s : State) (code : Code) (info : Word) : State :=
  { s with engine := .idle, arch := { s.arch with done := true, err := code, errInfo := info } }

/-- `s` after a completion with this code and detail word, with `f` the command's writes (R123, R124). -/
def State.endedWith (s : State) (code : Code) (info : Word) (f : Arch → Arch) : State :=
  { s.ended code info with arch := f (s.ended code info).arch }

/-- Buffer `m'` is `m` with `out` stored at `[a .. a+len(out))`, read byte by byte (R325). -/
def Memory.Stored (m m' : Memory) (a : Nat) (out : List Byte) : Prop :=
  (∀ i b, out[i]? = some b → m'.read (a + i) = b) ∧
    ∀ i, i < a ∨ a + out.length ≤ i → m'.read i = m.read i

/-- R44: the bank holds the digest `d`: byte `k` of register `i` is `d[4i+k]`. -/
def Bank.Holds (b : Bank) (d : List Byte) : Prop :=
  ∀ (i : Fin 8) (k : Fin 4), d[4 * i.val + k.val]? = some ((b.get i).extractLsb' (8 * k.val) 8)

/-- R50: the reset value of every register, with the buffers `tb` and `bb`. -/
def resetTable (tb bb : Memory) : Arch where
  ie := false
  done := false
  ovr := false
  err := .none
  textLen := 0x0000
  byteLen := 0x0000
  errInfo := 0x00000000
  result := 0x00000000
  convInfo := 0x0000
  allow := { w0 := 0x00000001, w1 := 0, w2 := 0, w3 := 0, w4 := 0, w5 := 0, w6 := 0, w7 := 0 }
  digest := { w0 := 0, w1 := 0, w2 := 0, w3 := 0, w4 := 0, w5 := 0, w6 := 0, w7 := 0 }
  tb := tb
  bb := bb

/-- Every byte of the buffer is the unspecified one of draw `d` (U1, U4). -/
def Memory.DrawnAs (m : Memory) (d : Nat) : Prop := ∀ i, m.read i = Config.freeByte d i

/-- R320: the offsets whose writes are locked: `CMD`, `TEXT_LEN`, `BYTE_LEN`, `ALLOW0..7` and the buffer words inside
capacity. -/
def lockedOffset (c : Config) (o : Nat) : Prop :=
  o = 0x00C ∨ o = 0x014 ∨ o = 0x018 ∨ (0x040 ≤ o ∧ o < 0x060) ∨ (0x100 ≤ o ∧ o < 0x100 + c.textCap) ∨
    (0x200 ≤ o ∧ o < 0x200 + c.byteCap)

/-- R82 to R84, R91: the offsets whose writes are ignored without OVR: `ID`, `HWCFG`, `ERR_INFO`, `RESULT`, `CONV_INFO`,
`DIGEST0..7`, reserved offsets and buffer words beyond capacity. -/
def ignoredOffset (c : Config) (o : Nat) : Prop :=
  o < 0x008 ∨ (0x01C ≤ o ∧ o < 0x040) ∨ (0x060 ≤ o ∧ o < 0x100) ∨ (0x100 + c.textCap ≤ o ∧ o < 0x200) ∨
    0x200 + c.byteCap ≤ o

/-- R82 to R84: reserved offsets and buffer words beyond capacity. -/
def reservedOffset (c : Config) (o : Nat) : Prop :=
  (0x028 ≤ o ∧ o < 0x040) ∨ (0x080 ≤ o ∧ o < 0x100) ∨ (0x100 + c.textCap ≤ o ∧ o < 0x200) ∨ 0x200 + c.byteCap ≤ o

/-- R321: the offsets whose reads are unspecified while Busy: `TEXT_LEN`, `BYTE_LEN`, `ERR_INFO`, `RESULT`, `CONV_INFO`,
`DIGEST0..7` and the buffer words inside capacity. -/
def hiddenOffset (c : Config) (o : Nat) : Prop :=
  (0x014 ≤ o ∧ o < 0x028) ∨ (0x060 ≤ o ∧ o < 0x080) ∨ (0x100 ≤ o ∧ o < 0x100 + c.textCap) ∨
    (0x200 ≤ o ∧ o < 0x200 + c.byteCap)

/-- R271: the completion codes each command may report. -/
def reportable : Instr → List Code
  | .nop => [.none]
  | .dec58 => [.none, .badSymbol, .lenRange]
  | .enc58 => [.none, .overflow, .lenRange]
  | .hash2 => [.none, .lenRange]
  | .chkver => [.none, .checksum, .lenRange]
  | .chkapp => [.none, .overflow, .lenRange]
  | .addr => [.none, .length, .version, .lenRange]
  | .validate => [.none, .badSymbol, .checksum, .length, .version, .lenRange]

/-- R144: the value of a digit list, most significant digit first. -/
def digitsValue (b : Nat) : List Nat → Nat
  | [] => 0
  | d :: rest => d * b ^ rest.length + digitsValue b rest

end Sys2Proof.Machine
end

