-- ==== Sys2Proof/Certificates/Slice0/Obligations.lean ====
section
/-! DEFINITION. The statements about the block, from the numbered rules of the spec. -/

open Sys2Proof Sys2Proof.Machine

/-! ### Encoding (30_encoding.md) -/

/-- R112: the eight words of the opcode map, and its reserved row. -/
def Obligations.DecodeReadsTheOpcodeMap : Prop :=
  decode 0x00000000 = .ok .nop ∧ decode 0x00000001 = .ok .dec58 ∧ decode 0x00000002 = .ok .enc58 ∧
    decode 0x00000003 = .ok .hash2 ∧ decode 0x00000004 = .ok .chkver ∧ decode 0x00000005 = .ok .chkapp ∧
    decode 0x00000006 = .ok .addr ∧ decode 0x00000007 = .ok .validate ∧
    ∀ n : Fin 8, ∃ e, decode (BitVec.ofNat 32 (0x8 + n.val)) = .error e

/-- R110, R113: a word decodes to a command exactly when it is that command's encoding, over all words. -/
def Obligations.DecodeAgreesWithEncode : Prop :=
  ∀ (w : Word) (i : Instr), i.wellFormed = true → (decode w = .ok i ↔ w = encode i)

/-- R113, R114: the words that decode to `BadCmd` are those with a bit of `[31:4]` set or `[3:0]` in `8 .. 15`. -/
def Obligations.BadCmdWordsAreTheIllegalOnes : Prop :=
  ∀ w : Word, (∃ e, decode w = .error e) ↔ w.toNat / 16 ≠ 0 ∨ 8 ≤ w.toNat % 16

/-! ### Steps and the command lifecycle -/

/-- R123: the engine's turn at a state that runs a command word is that command's meaning; the turn comes when it is
the next action, or when no action is pending (the model's scheduler, log entry 4). -/
def Obligations.StepRunsTheDecodedCommand : Prop :=
  ∀ (s : State) (w : Word) (S : Arch) (i : Instr), s.engine = .busy w S → decode w = .ok i →
    (s.inputs = [] → step s = exec i s) ∧
      ∀ rest, s.inputs = .engineTurn :: rest → step s = exec i { s with inputs := rest }

/-- R94, R300: a step takes the next pending action, a host access or a reset, before anything else; an idle engine
does nothing in its turn. That the actions stand in a list is the model's scheduler (log entry 4). -/
def Obligations.StepTakesTheNextAction : Prop :=
  ∀ s : State,
    (∀ a rest, s.inputs = .access a :: rest → step s = .next ({ s with inputs := rest }.busAccess a)) ∧
      (∀ rest, s.inputs = .hardReset :: rest → step s = .next { s with inputs := rest }.hardReset) ∧
      (s.engine = .idle → s.inputs = [] → step s = .next s) ∧
      ∀ rest, s.engine = .idle → s.inputs = .engineTurn :: rest → step s = .next { s with inputs := rest }

/-- R114: a word with a bit of `[31:4]` set, or one of `0x8 .. 0xF`, decodes to `BadCmd`. It is accepted as a command and
completes with `BAD_CMD` and `ERR_INFO = w`; nothing else changes. -/
def Obligations.IllegalWordCompletesWithBadCmd : Prop :=
  ∀ (s : State) (w : Word), s.engine = .idle → w.toNat / 16 ≠ 0 ∨ 8 ≤ w.toNat % 16 →
    let u := s.busAccess (write32 0x00C w)
    (∃ e, decode w = .error e) ∧ u.busy = true ∧
      engineTurn u = .next { s.ended .badCmd w with response := some .written }

/-- R120, R121: a CMD write while Idle starts the command, for every word: `BUSY <- 1`, `DONE <- 0`, `ERR <- 0`, and the
engine holds the word and the whole state as its snapshot. `irq` falls. Nothing else changes. -/
def Obligations.CmdWriteStartsTheCommand : Prop :=
  ∀ (s : State) (w : Word), s.engine = .idle →
    let S : Arch := { s.arch with done := false, err := .none }
    s.busAccess (write32 0x00C w) = { s with arch := S, engine := .busy w S, response := some .written } ∧
      (s.busAccess (write32 0x00C w)).busy = true ∧ (s.busAccess (write32 0x00C w)).irq = false

/-- R122: a CMD write while Busy is ignored and sets `STATUS.OVR`. -/
def Obligations.CmdWriteWhileBusyIsAnOverrun : Prop :=
  ∀ (s : State) (v : Word) (S : Arch) (w : Word), s.engine = .busy v S →
    s.busAccess (write32 0x00C w) = { s with arch := { s.arch with ovr := true }, response := some .written }

/-- R18, R123: whatever host accesses arrive while a command word runs, legal or not, short of a soft reset, its completion
leaves what it would have left at once, but for `CTRL.IE` and `STATUS.OVR`. That the completion keeps those two as the host
left them is the model's reading of R123 (log entry 10). -/
def Obligations.RunningCommandIgnoresHostAccesses : Prop :=
  ∀ (s : State) (w : Word) (accesses : List Access), (∀ a ∈ accesses, softResets a = false) →
    let u := accesses.foldl State.busAccess (s.start w)
    u.engine = (s.start w).engine ∧
      ∃ now later, engineTurn (s.start w) = .next now ∧ engineTurn u = .next later ∧
        later.arch = { now.arch with ie := u.arch.ie, ovr := u.arch.ovr } ∧ later.busy = false

/-- R331: from any state with a running command, the engine is Idle after at most one step more than there are
pending actions, and no step before stops. That the engine has its turn when no action is pending is the model's scheduler
(log entry 4). -/
def Obligations.EveryStartedCommandEnds : Prop :=
  ∀ s : State, s.busy = true →
    ∃ k t, k ≤ s.inputs.length + 1 ∧ Host.Core.run Sys2Proof.core k s = .next t ∧ t.busy = false

/-- A step is total: it answers a next state, never a fault or a refusal, from every state. R124 and R270 have every
command complete. That a refused access is a next state with the bus error as its answer (log entry 7), and that a command
on unwritten bytes runs where R306 and U2 also offer a fault (log entry 2), are the model's choices. -/
def Obligations.EveryStepAnswersANextState : Prop :=
  ∀ s : State, ∃ t, step s = .next t

/-! ### The register window (20_memory.md) -/

/-- R320: while Busy, writes to the locked registers and buffer words are ignored and set OVR, and writes to `CTRL` (a soft
reset among them) and `STATUS` are accepted; writes to read-only and reserved offsets are ignored without OVR in both
engine states. -/
def Obligations.LockedWritesWhileBusySetOverrun : Prop :=
  ∀ (s : State) (off : BitVec 12) (w : Word), s.cfg.Valid → off.toNat % 4 = 0 →
    (s.busy = true → lockedOffset s.cfg off.toNat →
        s.busAccess (write32 off w) = { s with arch := { s.arch with ovr := true }, response := some .written }) ∧
      (ignoredOffset s.cfg off.toNat → s.busAccess (write32 off w) = { s with response := some .written }) ∧
      (s.busy = true → w.getLsbD 1 = false →
        s.busAccess (write32 0x008 w) =
          { s with arch := { s.arch with ie := w.getLsbD 0 }, response := some .written }) ∧
      (s.busy = true → w.getLsbD 1 = true →
        (s.busAccess (write32 0x008 w)).engine = .idle ∧ (s.busAccess (write32 0x008 w)).arch.ovr = false) ∧
      (s.busy = true →
        s.busAccess (write32 0x010 w) =
          { s with
            arch := { s.arch with
              done := if w.getLsbD 1 then false else s.arch.done
              ovr := if w.getLsbD 2 then false else s.arch.ovr }
            response := some .written })

/-- R92: no read has a side effect: registers, buffers, engine, parameters and pending actions are as before. -/
def Obligations.ReadsHaveNoSideEffect : Prop :=
  ∀ (s : State) (a : Access), a.op = .read →
    let t := s.busAccess a
    t.arch = s.arch ∧ t.engine = s.engine ∧ t.cfg = s.cfg ∧ t.inputs = s.inputs ∧ t.irq = s.irq

/-- R321: while Busy, a read of a hidden offset returns an unspecified word, a draw no earlier read had, with no side
effect; `ID`, `HWCFG`, `CTRL`, `STATUS` and `ALLOW0..7` return the values they return while Idle. The draw number is the
model's own (log entry 3); nothing is said of the word. That buffer words are hidden inside capacity only is the model's
inference from R90 over R321's wording (log entry 11). -/
def Obligations.BusyReadsAreFreshDraws : Prop :=
  ∀ (s : State) (v : Word) (S : Arch) (off : BitVec 12), s.cfg.Valid → s.engine = .busy v S → off.toNat % 4 = 0 →
    (hiddenOffset s.cfg off.toNat →
        ∃ d, s.draws ≤ d ∧ s.busAccess (read32 off) =
          { s with response := some (.data (Config.freeWord d)), draws := d + 1 }) ∧
      (off.toNat < 0x00C ∨ (0x040 ≤ off.toNat ∧ off.toNat < 0x060) →
        s.busAccess (read32 off) = { s with response := { s with engine := .idle }.answerTo off }) ∧
      s.busAccess (read32 0x010) = { s with response := some (.data (statusWord true s.arch.done s.arch.ovr s.arch.err)) }

/-- R90, R31: what a host read returns: `ID`, `CMD`, `CTRL`, `ALLOW0..7` and reserved offsets in both engine states, the
other registers and every byte of the buffers while Idle. That a buffer word beyond capacity reads 0 also while Busy is the
model's inference from R82 and R90 over R321's wording (log entry 11). -/
def Obligations.ReadsReturnTheRegisters : Prop :=
  ∀ s : State, s.cfg.Valid →
    s.answerTo 0x000 = some (.data 0x0B58C0DE) ∧ s.answerTo 0x00C = some (.data 0) ∧
      s.answerTo 0x008 = some (.data (if s.arch.ie then 1 else 0)) ∧
      (∀ i : Fin 8, s.answerTo (BitVec.ofNat 12 (0x040 + 4 * i.val)) = some (.data (s.arch.allow.get i))) ∧
      (∀ off : BitVec 12, off.toNat % 4 = 0 → reservedOffset s.cfg off.toNat → s.answerTo off = some (.data 0)) ∧
      (s.engine = .idle →
        s.answerTo 0x014 = some (.data (s.arch.textLen.setWidth 32)) ∧
          s.answerTo 0x018 = some (.data (s.arch.byteLen.setWidth 32)) ∧
          s.answerTo 0x01C = some (.data s.arch.errInfo) ∧ s.answerTo 0x020 = some (.data s.arch.result) ∧
          s.answerTo 0x024 = some (.data (s.arch.convInfo.setWidth 32)) ∧
          (∀ i : Fin 8, s.answerTo (BitVec.ofNat 12 (0x060 + 4 * i.val)) = some (.data (s.arch.digest.get i))) ∧
          (∀ j, 4 * j < s.cfg.textCap →
            ∃ w, s.answerTo (BitVec.ofNat 12 (0x100 + 4 * j)) = some (.data w) ∧
              ∀ k : Fin 4, w.extractLsb' (8 * k.val) 8 = s.arch.tb.read (4 * j + k.val)) ∧
          ∀ j, 4 * j < s.cfg.byteCap →
            ∃ w, s.answerTo (BitVec.ofNat 12 (0x200 + 4 * j)) = some (.data w) ∧
              ∀ k : Fin 4, w.extractLsb' (8 * k.val) 8 = s.arch.bb.read (4 * j + k.val))

/-- R35, R271: the layout of `STATUS`, and the number of each completion code. -/
def Obligations.StatusWordLayout : Prop :=
  (∀ s : State, ∃ w, s.answerTo 0x010 = some (.data w) ∧ w.getLsbD 0 = s.busy ∧ w.getLsbD 1 = s.arch.done ∧
      w.getLsbD 2 = s.arch.ovr ∧ w.getLsbD 3 = false ∧ w.extractLsb' 4 4 = s.arch.err.bits ∧ w.extractLsb' 8 24 = 0) ∧
    [Code.none, .badSymbol, .digitRange, .checksum, .length, .version, .overflow, .lenRange, .badCmd].map
      (fun c => c.bits.toNat) = [0, 1, 2, 3, 4, 5, 6, 7, 8]

/-- R32: `HWCFG` reports the build's capacities and the command set revision in both engine states, its other bits are
0, and a write of it is ignored. At the defaults it reads `0x11000100`. -/
def Obligations.HwcfgReportsTheBuild : Prop :=
  (∀ s : State, s.cfg.Valid →
      (∃ h, s.answerTo 0x004 = some (.data h) ∧ (h.extractLsb' 0 9).toNat = s.cfg.textCap ∧ h.extractLsb' 9 7 = 0 ∧
          (h.extractLsb' 16 9).toNat = s.cfg.byteCap ∧ h.extractLsb' 25 3 = 0 ∧ h.extractLsb' 28 4 = 1) ∧
        ∀ w, s.busAccess (write32 0x004 w) = { s with response := some .written }) ∧
    State.reset.answerTo 0x004 = some (.data 0x11000100)

/-- R89: an access that is not 32 bits wide, or not at a multiple of 4, gets the bus error response, changes no state
and returns no data; every other access is served. -/
def Obligations.RefusedAccessChangesNoState : Prop :=
  ∀ (s : State) (a : Access),
    (a.width ≠ .w32 ∨ a.off.toNat % 4 ≠ 0 → s.busAccess a = { s with response := some (.fault .busError) }) ∧
      (a.width = .w32 → a.off.toNat % 4 = 0 → (s.busAccess a).response ≠ some (.fault .busError))

/-- R85, R91: while Idle, a write of `w` to buffer word `j` inside capacity sets byte `4j+k` to `w[8k+7:8k]` and no other
byte and no other register, and the word reads back as `w`. -/
def Obligations.BufferWordsPackLittleEndian : Prop :=
  ∀ (s : State) (j : Nat) (w : Word), s.cfg.Valid → s.engine = .idle →
    let out : List Byte := [w.extractLsb' 0 8, w.extractLsb' 8 8, w.extractLsb' 16 8, w.extractLsb' 24 8]
    (4 * j < s.cfg.textCap →
        let off := BitVec.ofNat 12 (0x100 + 4 * j)
        ∃ m, s.arch.tb.Stored m (4 * j) out ∧
          s.busAccess (write32 off w) = { s with arch := { s.arch with tb := m }, response := some .written } ∧
          (s.busAccess (write32 off w)).answerTo off = some (.data w)) ∧
      (4 * j < s.cfg.byteCap →
        let off := BitVec.ofNat 12 (0x200 + 4 * j)
        ∃ m, s.arch.bb.Stored m (4 * j) out ∧
          s.busAccess (write32 off w) = { s with arch := { s.arch with bb := m }, response := some .written } ∧
          (s.busAccess (write32 off w)).answerTo off = some (.data w))

/-- R38, R39: while Idle, a write of a length register keeps bits `[15:0]` and drops `[31:16]`; any value is accepted. -/
def Obligations.LengthRegistersKeepSixteenBits : Prop :=
  ∀ (s : State) (w : Word), s.engine = .idle →
    let n := w.toNat % 65536
    (∃ t, s.busAccess (write32 0x014 w) = t ∧ t.arch = { s.arch with textLen := BitVec.ofNat 16 n } ∧
        t.engine = .idle ∧ t.answerTo 0x014 = some (.data (BitVec.ofNat 32 n))) ∧
      ∃ t, s.busAccess (write32 0x018 w) = t ∧ t.arch = { s.arch with byteLen := BitVec.ofNat 16 n } ∧
        t.engine = .idle ∧ t.answerTo 0x018 = some (.data (BitVec.ofNat 32 n))

/-- R43: version byte `v` is in the set iff bit `v mod 32` of `ALLOW(v div 32)` is 1; the reset set is `{0x00}`; and, while
Idle, a write of `w` to `ALLOWi` makes version bytes `32i .. 32i+31` allowed exactly where `w` has a 1, and changes the
membership of no other byte and no other register. -/
def Obligations.AllowRegistersFormOneSet : Prop :=
  (∀ (b : Bank) (i : Fin 8) (j : Fin 32), allowed b (BitVec.ofNat 8 (32 * i.val + j.val)) = (b.get i).getLsbD j.val) ∧
    (∀ v : Byte, allowed State.reset.arch.allow v = true ↔ v = 0x00) ∧
    ∀ (s : State) (i : Fin 8) (w : Word), s.engine = .idle →
      let t := s.busAccess (write32 (BitVec.ofNat 12 (0x040 + 4 * i.val)) w)
      (∀ v : Byte, allowed t.arch.allow v =
          if v.toNat / 32 = i.val then w.getLsbD (v.toNat % 32) else allowed s.arch.allow v) ∧
        t.arch = { s.arch with allow := t.arch.allow } ∧ t.engine = .idle

/-- R33: a write of `CTRL` is accepted in both engine states: with `SRST = 0` it sets `IE` to bit 0 and nothing else, with
`SRST = 1` it gives every register its reset value, `IE` = 0 among them, and the engine is Idle. `CTRL` reads back `IE`
alone. -/
def Obligations.CtrlWriteEnablesOrResets : Prop :=
  ∀ (s : State) (w : Word),
    let t := s.busAccess (write32 0x008 w)
    (w.getLsbD 1 = false → t = { s with arch := { s.arch with ie := w.getLsbD 0 }, response := some .written }) ∧
      (w.getLsbD 1 = true → t.arch = resetTable t.arch.tb t.arch.bb ∧ t.arch.ie = false ∧ t.engine = .idle) ∧
      t.answerTo 0x008 = some (.data (if t.arch.ie then 1 else 0))

/-- R35: a write of `STATUS`, in both engine states, clears `DONE` where bit 1 is 1 and `OVR` where bit 2 is 1, and
changes nothing else; it never sets `OVR`. -/
def Obligations.StatusWriteClearsOnlyNamedFlags : Prop :=
  ∀ (s : State) (w : Word),
    s.busAccess (write32 0x010 w) =
      { s with
        arch := { s.arch with
          done := if w.getLsbD 1 then false else s.arch.done
          ovr := if w.getLsbD 2 then false else s.arch.ovr }
        response := some .written }

/-! ### Resets and the interrupt (70_reset_and_hazards.md, 10_state.md) -/

/-- R302: soft reset, from either engine state: every register takes its reset value, the engine becomes Idle, OVR is
cleared and `irq` falls; while Idle the buffers keep their contents. -/
def Obligations.SoftResetRestoresTheRegisters : Prop :=
  ∀ (s : State) (w : Word), w.getLsbD 1 = true →
    let t := s.busAccess (write32 0x008 w)
    t.arch = resetTable t.arch.tb t.arch.bb ∧ t.engine = .idle ∧ t.irq = false ∧ t.cfg = s.cfg ∧
      t.inputs = s.inputs ∧ (s.engine = .idle → t.arch.tb = s.arch.tb ∧ t.arch.bb = s.arch.bb)

/-- R303: a soft reset abandons a running command and sets no DONE; the buffer the command writes becomes unspecified,
under a draw no buffer had, and the other buffer keeps its contents. That an unspecified byte is a free value under a fresh
draw number is the model's form (log entry 2). -/
def Obligations.SoftResetAbortsTheCommand : Prop :=
  ∀ (s : State) (v : Word) (S : Arch) (w : Word), s.engine = .busy v S → w.getLsbD 1 = true →
    let t := s.busAccess (write32 0x008 w)
    t.engine = .idle ∧ t.arch.done = false ∧ t.arch.err = .none ∧
      (v = encode .dec58 ∨ v = encode .validate ∨ v = encode .chkapp →
        t.arch.tb = s.arch.tb ∧ ∃ d, s.draws ≤ d ∧ d < t.draws ∧ t.arch.bb.DrawnAs d) ∧
      (v = encode .enc58 → t.arch.bb = s.arch.bb ∧ ∃ d, s.draws ≤ d ∧ d < t.draws ∧ t.arch.tb.DrawnAs d) ∧
      (v = encode .nop ∨ v = encode .hash2 ∨ v = encode .chkver ∨ v = encode .addr ∨ ¬ commandWordWellFormed v →
        t.arch.tb = s.arch.tb ∧ t.arch.bb = s.arch.bb)

/-- R300, R301: a hardware reset, whatever the engine does: the reset table, the engine Idle, no DONE, and both buffers
unspecified under two new draws. That an unspecified byte is a free value under a fresh draw number is the model's form
(log entry 2), and that the reset is one step is too (log entry 6). -/
def Obligations.HardResetGivesTheResetTable : Prop :=
  ∀ (s : State) (rest : List Input), s.inputs = .hardReset :: rest →
    ∃ t, step s = .next t ∧ t.arch = resetTable t.arch.tb t.arch.bb ∧ t.engine = .idle ∧ t.irq = false ∧
      t.cfg = s.cfg ∧ t.inputs = rest ∧
      ∃ dt db, s.draws ≤ dt ∧ s.draws ≤ db ∧ dt ≠ db ∧ dt < t.draws ∧ db < t.draws ∧
        t.arch.tb.DrawnAs dt ∧ t.arch.bb.DrawnAs db

/-- R50: the state after a hardware reset, at the default parameters; every byte of both buffers is unspecified, as a free
value under a draw number of its buffer's own (the model's form, log entry 2). -/
def Obligations.ResetStateHoldsTheTable : Prop :=
  State.reset.arch = resetTable State.reset.arch.tb State.reset.arch.bb ∧ State.reset.engine = .idle ∧
    State.reset.irq = false ∧ State.reset.cfg.textCap = 256 ∧ State.reset.cfg.byteCap = 256 ∧
    ∃ dt db, dt ≠ db ∧ State.reset.arch.tb.DrawnAs dt ∧ State.reset.arch.bb.DrawnAs db

/-- R49: `irq` is `CTRL.IE` and `STATUS.DONE`; a completion, of a command or of an illegal word, raises it exactly when `IE`
is 1, and it falls when the host clears DONE, clears IE or starts a command, and on either reset. -/
def Obligations.IrqIsEnableAndDone : Prop :=
  ∀ s : State,
    s.irq = (s.arch.ie && s.arch.done) ∧
      (s.busy = true → ∃ t, engineTurn s = .next t ∧ t.irq = s.arch.ie) ∧
      (∀ w, w.getLsbD 1 = true → (s.busAccess (write32 0x010 w)).irq = false) ∧
      (∀ w, w.getLsbD 0 = false → (s.busAccess (write32 0x008 w)).irq = false) ∧
      (∀ w, s.engine = .idle → (s.busAccess (write32 0x00C w)).irq = false) ∧
      (∀ w, w.getLsbD 1 = true → (s.busAccess (write32 0x008 w)).irq = false) ∧ s.hardReset.irq = false

/-! ### Commands (40_converter.md to 44_control.md) -/

/-- R260: NOP completes with `NONE` and `ERR_INFO = 0` and changes nothing else. -/
def Obligations.NopOnlyCompletes : Prop :=
  decode 0x00000000 = .ok .nop ∧ ∀ s : State, s.Coherent → exec .nop s = .next (s.ended .none 0)

/-- R150: DEC58. For `n = TEXT_LEN`: `LEN_RANGE` when `n > TEXT_CAP`; `BAD_SYMBOL` with index and byte of the first byte
outside the alphabet; otherwise `BB[0..m)` is the converted value with its leading zero bytes, `BYTE_LEN = m`,
`LZC = k`. Nothing else changes. -/
def Obligations.Dec58ConvertsTextToBytes : Prop :=
  decode 0x00000001 = .ok .dec58 ∧ ∀ s : State, s.cfg.Valid → s.Coherent →
    let n := s.arch.textLen.toNat
    (s.cfg.textCap < n → exec .dec58 s = .next (s.ended .lenRange (BitVec.ofNat 32 n))) ∧
      (∀ i c, n ≤ s.cfg.textCap → toInteger 58 lookup58 s.arch.text = .err i c →
        exec .dec58 s = .next (s.ended .badSymbol (BitVec.ofNat 32 (c.toNat * 65536 + i)))) ∧
      ∀ v k, n ≤ s.cfg.textCap → toInteger 58 lookup58 s.arch.text = .ok v k →
        let out := fromInteger v k 256 sym256
        ∃ m t, s.arch.bb.Stored m 0 out ∧ exec .dec58 s = .next t ∧
          t = s.endedWith .none 0 (fun a =>
            { a with bb := m, byteLen := BitVec.ofNat 16 out.length, convInfo := BitVec.ofNat 16 k }) ∧
          t.arch.byteLen.toNat = out.length ∧ t.arch.convInfo.toNat = k ∧ out.length ≤ n

/-- R151: ENC58. For `n = BYTE_LEN`: `LEN_RANGE` when `n > BYTE_CAP`; `OVERFLOW` with the needed length when the text
exceeds `TEXT_CAP`; otherwise `TB[0..m)` is the text with its leading `'1'` symbols, `TEXT_LEN = m`, `LZC = k`. Nothing else
changes. -/
def Obligations.Enc58ConvertsBytesToText : Prop :=
  decode 0x00000002 = .ok .enc58 ∧ ∀ s : State, s.cfg.Valid → s.Coherent →
    let n := s.arch.byteLen.toNat
    (s.cfg.byteCap < n → exec .enc58 s = .next (s.ended .lenRange (BitVec.ofNat 32 (65536 + n)))) ∧
      (n ≤ s.cfg.byteCap → ∃ v k, toInteger 256 lookup256 s.arch.bytes = .ok v k ∧
        let out := fromInteger v k 58 sym58
        (s.cfg.textCap < out.length →
            exec .enc58 s = .next (s.ended .overflow (BitVec.ofNat 32 out.length))) ∧
          (out.length ≤ s.cfg.textCap →
            ∃ m t, s.arch.tb.Stored m 0 out ∧ exec .enc58 s = .next t ∧
              t = s.endedWith .none 0 (fun a =>
                { a with tb := m, textLen := BitVec.ofNat 16 out.length, convInfo := BitVec.ofNat 16 k }) ∧
              t.arch.textLen.toNat = out.length ∧ t.arch.convInfo.toNat = k))

/-- R192: HASH2. `LEN_RANGE` when `BYTE_LEN > BYTE_CAP`; otherwise `DIGEST` is the double SHA-256 of `BB[0..n)`, for every
length from 0 on. Nothing else changes. -/
def Obligations.Hash2WritesTheDoubleHash : Prop :=
  decode 0x00000003 = .ok .hash2 ∧ ∀ s : State, s.Coherent →
    let n := s.arch.byteLen.toNat
    (s.cfg.byteCap < n → exec .hash2 s = .next (s.ended .lenRange (BitVec.ofNat 32 (65536 + n)))) ∧
      (n ≤ s.cfg.byteCap → ∃ D : Bank, D.Holds (Sha.sha256 (Sha.sha256 s.arch.bytes)) ∧
        exec .hash2 s = .next (s.endedWith .none 0 (fun a => { a with digest := D })))

/-- R220, R221, R223: CHKVER. `LEN_RANGE` first. `DIGEST` is then the double hash of all but the last 4 bytes (of nothing,
for `n < 4`). When the last 4 bytes are the first 4 of it, `BYTE_LEN` drops by 4; otherwise `CHECKSUM` with `ERR_INFO = n`.
Nothing else changes. -/
def Obligations.ChkverStripsAMatchingChecksum : Prop :=
  decode 0x00000004 = .ok .chkver ∧ ∀ s : State, s.Coherent →
    let n := s.arch.byteLen.toNat
    let p := if 4 ≤ n then n - 4 else 0
    (s.cfg.byteCap < n → exec .chkver s = .next (s.ended .lenRange (BitVec.ofNat 32 (65536 + n)))) ∧
      (n ≤ s.cfg.byteCap → ∃ D : Bank, D.Holds (Sha.dsha (s.arch.bytes.take p)) ∧
        (checksumHolds s.arch.bytes →
            exec .chkver s =
              .next (s.endedWith .none 0 (fun a => { a with digest := D, byteLen := BitVec.ofNat 16 (n - 4) }))) ∧
          (¬ checksumHolds s.arch.bytes →
            exec .chkver s = .next (s.endedWith .checksum (BitVec.ofNat 32 n) (fun a => { a with digest := D }))))

/-- R222: CHKAPP. `LEN_RANGE` first, then `OVERFLOW` with `n + 4` when that exceeds `BYTE_CAP`; otherwise `DIGEST` is the
double hash of `BB[0..n)`, its first 4 bytes are stored at `BB[n..n+4)` and `BYTE_LEN` grows by 4. Nothing else changes. -/
def Obligations.ChkappAppendsTheChecksum : Prop :=
  decode 0x00000005 = .ok .chkapp ∧ ∀ s : State, s.Coherent →
    let n := s.arch.byteLen.toNat
    (s.cfg.byteCap < n → exec .chkapp s = .next (s.ended .lenRange (BitVec.ofNat 32 (65536 + n)))) ∧
      (n ≤ s.cfg.byteCap → s.cfg.byteCap < n + 4 →
        exec .chkapp s = .next (s.ended .overflow (BitVec.ofNat 32 (n + 4)))) ∧
      (n + 4 ≤ s.cfg.byteCap → ∃ (D : Bank) (m : Memory), D.Holds (Sha.dsha s.arch.bytes) ∧
        s.arch.bb.Stored m n ((Sha.dsha s.arch.bytes).take 4) ∧
        exec .chkapp s =
          .next (s.endedWith .none 0 (fun a => { a with digest := D, bb := m, byteLen := BitVec.ofNat 16 (n + 4) })))

/-- R240: ADDR. It clears `RESULT`, then reports `LEN_RANGE`, then `LENGTH` for a payload that is not 21 bytes, then
`VERSION` for a version byte not in the allow-list; otherwise `RESULT` is `VALID = 1` with the version byte. Nothing else
changes. -/
def Obligations.AddrChecksLengthThenVersion : Prop :=
  decode 0x00000006 = .ok .addr ∧ ∀ s : State, s.cfg.Valid → s.Coherent →
    let n := s.arch.byteLen.toNat
    let v := s.arch.bb.read 0
    (s.cfg.byteCap < n →
        exec .addr s =
          .next (s.endedWith .lenRange (BitVec.ofNat 32 (65536 + n)) (fun a => { a with result := 0 }))) ∧
      (n ≤ s.cfg.byteCap → n ≠ 21 →
        exec .addr s = .next (s.endedWith .length (BitVec.ofNat 32 n) (fun a => { a with result := 0 }))) ∧
      (n = 21 → allowed s.arch.allow v = false →
        exec .addr s =
          .next (s.endedWith .version (BitVec.ofNat 32 (v.toNat * 65536)) (fun a => { a with result := 0 }))) ∧
      (n = 21 → allowed s.arch.allow v = true →
        exec .addr s = .next (s.endedWith .none 0 (fun a => { a with result := BitVec.ofNat 32 (256 + v.toNat) })))

/-- R245: VALIDATE. A text longer than `TEXT_CAP` gives `LEN_RANGE` for `TEXT_LEN`, with `RESULT` cleared and nothing else
changed. Any other text gives the verdict of DKS's `decode_address`, with `RESULT` set exactly on success, and leaves the
buffers, `DIGEST`, `BYTE_LEN`, `LZC` and `ERR_INFO` as the outcome table says. -/
def Obligations.ValidateRefinesDecodeAddress : Prop :=
  decode 0x00000007 = .ok .validate ∧ ∀ s : State, s.cfg.Valid → s.Coherent →
    let n := s.arch.textLen.toNat
    let verdict := addressVerdict s.arch.allow s.arch.text
    (s.cfg.textCap < n →
        exec .validate s = .next (s.endedWith .lenRange (BitVec.ofNat 32 n) (fun a => { a with result := 0 }))) ∧
      (n ≤ s.cfg.textCap →
        ∃ t, exec .validate s = .next t ∧ t.arch.err = verdict ∧ t.arch.done = true ∧ t.busy = false ∧
          (verdict ≠ .none → t.arch.result = 0) ∧
          (∀ i c, toInteger 58 lookup58 s.arch.text = .err i c →
            t = s.endedWith .badSymbol (BitVec.ofNat 32 (c.toNat * 65536 + i)) (fun a => { a with result := 0 })) ∧
          ∀ v k bytes, toInteger 58 lookup58 s.arch.text = .ok v k → decodeText s.arch.text = some bytes →
            s.arch.bb.Stored t.arch.bb 0 bytes ∧ t.arch.convInfo.toNat = k ∧
              t.arch.digest.Holds (Sha.dsha (bytes.take (bytes.length - 4))) ∧
              (verdict = .checksum →
                t.arch.byteLen.toNat = bytes.length ∧ t.arch.errInfo = BitVec.ofNat 32 bytes.length) ∧
              (verdict ≠ .checksum → t.arch.byteLen.toNat = bytes.length - 4) ∧
              (verdict = .length → t.arch.errInfo = BitVec.ofNat 32 (bytes.length - 4)) ∧
              (verdict = .version → t.arch.errInfo = BitVec.ofNat 32 ((bytes.getD 0 0).toNat * 65536)) ∧
              (verdict = .none →
                t.arch.errInfo = 0 ∧ t.arch.byteLen = 21 ∧
                  t.arch.result = BitVec.ofNat 32 (256 + (bytes.getD 0 0).toNat)))

/-- R245, D22: VALIDATE is DEC58, CHKVER and ADDR run in turn as three commands, each started on what the last one left, up
to the first that fails, with `RESULT` cleared when it is an earlier stage that fails. It holds at every state, running or
Idle; that a meaning applied to an Idle state takes its registers as they are is the model's choice (log entry 9). -/
def Obligations.ValidateIsTheThreeCommandsInTurn : Prop :=
  ∀ s : State,
    ∃ a b c, exec .dec58 s = .next a ∧ exec .chkver (a.start (encode .chkver)) = .next b ∧
      exec .addr (b.start (encode .addr)) = .next c ∧
      (a.arch.err ≠ .none → exec .validate s = .next { a with arch := { a.arch with result := 0 } }) ∧
      (a.arch.err = .none → b.arch.err ≠ .none →
        exec .validate s = .next { b with arch := { b.arch with result := 0 } }) ∧
      (a.arch.err = .none → b.arch.err = .none → exec .validate s = .next c)

/-- R245, R249: VALIDATE succeeds on every text within capacity that decodes to a 21-byte payload with an allowed version
byte, followed by the payload's checksum. `RESULT` is then `VALID = 1` with the version byte, `BYTE_LEN = 21`, the payload is
in `BB[0..21)` and `DIGEST` is its double hash. -/
def Obligations.ValidateAcceptsAValidAddress : Prop :=
  ∀ (s : State) (payload : List Byte), s.cfg.Valid → s.Coherent → s.arch.textLen.toNat ≤ s.cfg.textCap →
    payload.length = 21 → allowed s.arch.allow (payload.getD 0 0) = true →
    decodeText s.arch.text = some (payload ++ (Sha.dsha payload).take 4) →
    ∃ t, exec .validate s = .next t ∧ t.arch.err = .none ∧ t.arch.errInfo = 0 ∧
      t.arch.result = BitVec.ofNat 32 (256 + (payload.getD 0 0).toNat) ∧ t.arch.byteLen = 21 ∧ t.arch.bytes = payload ∧
      t.arch.digest.Holds (Sha.dsha payload)

/-! ### Frames -/

/-- R123, R111: every command completes, leaving the engine Idle with DONE set, and changes neither the parameters, the
pending actions, the draws, the bus answer, `CTRL.IE`, `STATUS.OVR` nor the allow-list. That `CTRL.IE` and `STATUS.OVR` keep
the host's values over a completion is the model's reading of R123 (log entry 10). -/
def Obligations.EveryCommandKeepsTheHostsSide : Prop :=
  ∀ (i : Instr) (s : State), s.Coherent →
    ∃ t, exec i s = .next t ∧ t.cfg = s.cfg ∧ t.inputs = s.inputs ∧ t.draws = s.draws ∧ t.response = s.response ∧
      t.arch.ie = s.arch.ie ∧ t.arch.ovr = s.arch.ovr ∧ t.arch.allow = s.arch.allow ∧ t.engine = .idle ∧
      t.arch.done = true

/-- R111, R325: NOP, HASH2, CHKVER and ADDR store to no buffer: every byte of `TB` and `BB` reads as before, and
`TEXT_LEN` and `CONV_INFO` are unchanged; `BYTE_LEN` changes only by CHKVER, `DIGEST` only by HASH2 and CHKVER, `RESULT` only
by ADDR. -/
def Obligations.NonStoringCommandsKeepTheBuffers : Prop :=
  ∀ (i : Instr) (s t : State), i = .nop ∨ i = .hash2 ∨ i = .chkver ∨ i = .addr → s.Coherent → exec i s = .next t →
    (∀ j, t.arch.tb.read j = s.arch.tb.read j) ∧ (∀ j, t.arch.bb.read j = s.arch.bb.read j) ∧
      t.arch.textLen = s.arch.textLen ∧ t.arch.convInfo = s.arch.convInfo ∧
      (i ≠ .chkver → t.arch.byteLen = s.arch.byteLen) ∧
      (i = .nop ∨ i = .addr → t.arch.digest = s.arch.digest) ∧ (i ≠ .addr → t.arch.result = s.arch.result)

/-- R111, R150, R245, R325: DEC58 and VALIDATE store the decoded bytes at `BB[0..m)` and no other byte; a text they cannot
decode stores nothing. `TB` and `TEXT_LEN` are unchanged; DEC58 changes neither `DIGEST` nor `RESULT`. -/
def Obligations.DecodingStoresOnlyItsOutput : Prop :=
  ∀ (i : Instr) (s t : State), i = .dec58 ∨ i = .validate → s.Coherent → exec i s = .next t →
    (∀ bytes, decodeText s.arch.text = some bytes →
        ∀ j, bytes.length ≤ j → t.arch.bb.read j = s.arch.bb.read j) ∧
      (decodeText s.arch.text = none ∨ s.cfg.textCap < s.arch.textLen.toNat →
        (∀ j, t.arch.bb.read j = s.arch.bb.read j) ∧ t.arch.byteLen = s.arch.byteLen ∧
          t.arch.convInfo = s.arch.convInfo ∧ t.arch.digest = s.arch.digest) ∧
      (∀ j, t.arch.tb.read j = s.arch.tb.read j) ∧ t.arch.textLen = s.arch.textLen ∧
      (i = .dec58 → t.arch.digest = s.arch.digest ∧ t.arch.result = s.arch.result)

/-- R111, R151, R325: ENC58 stores the text at `TB[0..m)` and no other byte, and nothing when it fails. `BB`, `BYTE_LEN`,
`DIGEST` and `RESULT` are unchanged. -/
def Obligations.EncodingStoresOnlyItsOutput : Prop :=
  ∀ s t : State, s.Coherent → exec .enc58 s = .next t →
    (∀ text, encodeBytes s.arch.bytes = some text →
        ∀ j, text.length ≤ j → t.arch.tb.read j = s.arch.tb.read j) ∧
      (t.arch.err ≠ .none →
        (∀ j, t.arch.tb.read j = s.arch.tb.read j) ∧ t.arch.textLen = s.arch.textLen ∧
          t.arch.convInfo = s.arch.convInfo) ∧
      (∀ j, t.arch.bb.read j = s.arch.bb.read j) ∧ t.arch.byteLen = s.arch.byteLen ∧
      t.arch.digest = s.arch.digest ∧ t.arch.result = s.arch.result

/-- R111, R222, R325: CHKAPP stores 4 bytes at `BB[n..n+4)` and no other byte, and nothing when it fails. `TB`, `TEXT_LEN`,
`CONV_INFO` and `RESULT` are unchanged. -/
def Obligations.AppendStoresFourBytesAtTheEnd : Prop :=
  ∀ s t : State, s.Coherent → exec .chkapp s = .next t →
    (∀ j, j < s.arch.byteLen.toNat ∨ s.arch.byteLen.toNat + 4 ≤ j → t.arch.bb.read j = s.arch.bb.read j) ∧
      (t.arch.err ≠ .none →
        (∀ j, t.arch.bb.read j = s.arch.bb.read j) ∧ t.arch.byteLen = s.arch.byteLen ∧
          t.arch.digest = s.arch.digest) ∧
      (∀ j, t.arch.tb.read j = s.arch.tb.read j) ∧ t.arch.textLen = s.arch.textLen ∧
      t.arch.convInfo = s.arch.convInfo ∧ t.arch.result = s.arch.result

/-- R271, R152: each command reports only the codes its row allows, for any operands; `DIGIT_RANGE` is never produced. -/
def Obligations.CommandsReportOnlyTheirCodes : Prop :=
  ∀ (i : Instr) (s t : State), exec i s = .next t → t.arch.err ∈ reportable i ∧ t.arch.err ≠ .digitRange

/-- R324: `RESULT` is written only by ADDR and VALIDATE, `DIGEST` only by HASH2, CHKVER, CHKAPP and VALIDATE, and
`CONV_INFO` only by DEC58, ENC58 and VALIDATE. A command that ends before its conversion or its checksum stage succeeds
writes neither. -/
def Obligations.StaleResultsAreKept : Prop :=
  ∀ (i : Instr) (s t : State), s.cfg.Valid → s.Coherent → exec i s = .next t →
    (i ≠ .addr → i ≠ .validate → t.arch.result = s.arch.result) ∧
      (i ≠ .hash2 → i ≠ .chkver → i ≠ .chkapp → i ≠ .validate → t.arch.digest = s.arch.digest) ∧
      (i ≠ .dec58 → i ≠ .enc58 → i ≠ .validate → t.arch.convInfo = s.arch.convInfo) ∧
      (t.arch.err = .badSymbol ∨ t.arch.err = .overflow ∨ t.arch.err = .lenRange →
        t.arch.convInfo = s.arch.convInfo ∧ t.arch.digest = s.arch.digest)

/-! ### The conversion and hash functions -/

/-- R140, R141: the 58 symbols of the alphabet ROM in digit order, and `lookup58`, which inverts it: a byte has digit `d`
exactly when it is the symbol of `d < 58`. The 198 other bytes have none, `0`, `I`, `O`, `l`, NUL and every byte from `0x80`
on among them. -/
def Obligations.LookupInvertsTheAlphabet : Prop :=
  (List.range 58).map (fun d => (sym58 d).toNat) =
      [49, 50, 51, 52, 53, 54, 55, 56, 57, 65, 66, 67, 68, 69, 70, 71, 72, 74, 75] ++
      [76, 77, 78, 80, 81, 82, 83, 84, 85, 86, 87, 88, 89, 90, 97, 98, 99, 100] ++
      [101, 102, 103, 104, 105, 106, 107, 109, 110, 111, 112, 113, 114, 115, 116, 117, 118, 119, 120, 121, 122] ∧
    (∀ (c : Byte) (d : Nat), lookup58 c = some d ↔ d < 58 ∧ sym58 d = c) ∧
    ((List.range 256).filter fun n => (lookup58 (BitVec.ofNat 8 n)).isNone).length = 198 ∧
    ∀ c : Byte, c = 0x30 ∨ c = 0x49 ∨ c = 0x4F ∨ c = 0x6C ∨ c = 0x00 ∨ 0x80 ≤ c.toNat → lookup58 c = none

/-- R144: `to_integer` gives the value of the digits, most significant first, when every symbol has one; otherwise the
smallest index without a digit, and the symbol there, whatever symbols follow it. -/
def Obligations.ToIntegerValueOrFirstBadSymbol : Prop :=
  ∀ (b : Nat) (lookup : Byte → Option Nat) (s : List Byte),
    (∀ v k, toInteger b lookup s = .ok v k →
        ∃ ds, s.map lookup = ds.map some ∧ v = digitsValue b ds) ∧
      ∀ i c, toInteger b lookup s = .err i c →
        s[i]? = some c ∧ lookup c = none ∧ (∀ j c', j < i → s[j]? = some c' → lookup c' ≠ none) ∧
          ∀ s', toInteger b lookup (s.take (i + 1) ++ s') = .err i c

/-- R145: the leading-zero count is the number of leading symbols whose digit is 0, for every radix from 2 on. -/
def Obligations.LeadingZeroCountLaw : Prop :=
  ∀ (b : Nat) (lookup : Byte → Option Nat) (s : List Byte) (v k : Nat), 2 ≤ b → toInteger b lookup s = .ok v k →
    k = (s.takeWhile fun c => lookup c == some 0).length

/-- R146: `from_integer` is `k` zero symbols before the symbols of `digits_B(v)`; those digits are empty for 0, start with a
non-zero digit otherwise, are below `B`, have value `v`, and no other list has all of this. -/
def Obligations.FromIntegerWritesTheDigits : Prop :=
  ∀ (v k b : Nat) (sym : Nat → Byte), 2 ≤ b →
    fromInteger v k b sym = List.replicate k (sym 0) ++ (digits b v).map sym ∧
      digitsValue b (digits b v) = v ∧ (∀ d ∈ digits b v, d < b) ∧ (digits b v).head? ≠ some 0 ∧
      ∀ ds : List Nat, (∀ d ∈ ds, d < b) → ds.head? ≠ some 0 → digitsValue b ds = v → ds = digits b v

/-- R147: the decoded bytes number `k + nd_256(v)`, at most as many as the symbols, where `nd_256(v)` is the least `m` with
`v < 256^m`. -/
def Obligations.DecodedBytesNeverExceedTheText : Prop :=
  ∀ (s : List Byte) (v k : Nat), toInteger 58 lookup58 s = .ok v k →
    ∃ m, (fromInteger v k 256 sym256).length = k + m ∧ v < 256 ^ m ∧ (∀ m', v < 256 ^ m' → m ≤ m') ∧ k + m ≤ s.length

/-- R149: the two-radix round trips: decoding an encoded byte sequence gives it back, and encoding a decoded text gives
the text back, for every byte sequence and every text over the alphabet. -/
def Obligations.ConversionRoundTrips : Prop :=
  (∀ bytes : List Byte, ∃ text, encodeBytes bytes = some text ∧ decodeText text = some bytes) ∧
    ∀ text : List Byte, (∀ c ∈ text, lookup58 c ≠ none) →
      ∃ bytes, decodeText text = some bytes ∧ encodeBytes bytes = some text

/-- R248: no text of more than 35 symbols decodes to 25 bytes. -/
def Obligations.NoLongTextDecodesToAnAddress : Prop :=
  ∀ (text bytes : List Byte), decodeText text = some bytes → bytes.length = 25 → text.length ≤ 35

/-- R185: the padded message is the message, `80`, the least number of zero bytes, and the bit length in 8 bytes most
significant first; it is whole blocks, `(L + 8) div 64 + 1` of them. -/
def Obligations.PaddingFillsWholeBlocks : Prop :=
  ∀ m : List Byte, m.length < 2 ^ 61 →
    ∃ z tail, Sha.pad m = m ++ [0x80] ++ List.replicate z 0x00 ++ tail ∧ tail.length = 8 ∧
      digitsValue 256 (tail.map BitVec.toNat) = 8 * m.length ∧
      (m.length + 1 + z) % 64 = 56 ∧ z < 64 ∧
      (Sha.pad m).length = 64 * ((m.length + 8) / 64 + 1)

/-- R180, R189, R190: every digest has 32 bytes; the published digests of the empty message and of "abc"; and the double
digests of V-HSH-6, V-HSH-7 and V-HSH-8 of 95_test_vectors.md, whose first hash chains two, two and five blocks (R186,
R188, R191). -/
def Obligations.ShaDigestsAreThePublishedOnes : Prop :=
  (∀ m : List Byte, (Sha.sha256 m).length = 32 ∧ (Sha.dsha m).length = 32) ∧
    digitsValue 256 ((Sha.sha256 []).map BitVec.toNat) =
      0xe3b0c44298fc1c149afbf4c8996fb92427ae41e4649b934ca495991b7852b855 ∧
    digitsValue 256 ((Sha.sha256 [0x61, 0x62, 0x63]).map BitVec.toNat) =
      0xba7816bf8f01cfea414140de5dae2223b00361a396177a9cb410ff61f20015ad ∧
    digitsValue 256 ((Sha.dsha (List.replicate 56 0x61)).map BitVec.toNat) =
      0x122cf0fa8f81dae14842491eedeab26374370514f6c4413bcc32352ae586b39e ∧
    digitsValue 256 ((Sha.dsha (List.replicate 64 0x61)).map BitVec.toNat) =
      0x64d28424725a6f219efb17d6f8e4036719bf9e1a8ec2388c22cfb5fc412d46bc ∧
    digitsValue 256 ((Sha.dsha ((List.range 256).map (BitVec.ofNat 8))).map BitVec.toNat) =
      0x60bd11c69262f84ddfea5f0d116d40af862c4dd8c2a92fb90e368b132e8fa89c

/-! ### Whole-machine results -/

/-- R222: CHKVER started on what a successful CHKAPP left succeeds and restores `BYTE_LEN`, with the same `DIGEST` and
payload. CHKAPP runs at any coherent state; its meaning at an Idle one is the model's choice (log entry 9). -/
def Obligations.AppendThenVerifyRestores : Prop :=
  ∀ s t : State, s.Coherent → s.cfg.Valid → exec .chkapp s = .next t → t.arch.err = .none →
    ∃ u, exec .chkver (t.start (encode .chkver)) = .next u ∧ u.arch.err = .none ∧
      u.arch.byteLen = s.arch.byteLen ∧ u.arch.digest = t.arch.digest ∧
      ∀ j, j < s.arch.byteLen.toNat → u.arch.bb.read j = s.arch.bb.read j

/-- R149 at the command level, both laws: DEC58 started on what a successful ENC58 left restores the bytes and `BYTE_LEN`,
and ENC58 started on what a successful DEC58 left restores the text and `TEXT_LEN`, each with the same leading-zero count.
The first command runs at any coherent state; its meaning at an Idle one is the model's choice (log entry 9). -/
def Obligations.EncodeThenDecodeRestores : Prop :=
  (∀ s t : State, s.Coherent → s.cfg.Valid → exec .enc58 s = .next t → t.arch.err = .none →
    ∃ u, exec .dec58 (t.start (encode .dec58)) = .next u ∧ u.arch.err = .none ∧
      u.arch.byteLen = s.arch.byteLen ∧ u.arch.bytes = s.arch.bytes ∧ u.arch.convInfo = t.arch.convInfo) ∧
  ∀ s t : State, s.Coherent → s.cfg.Valid → exec .dec58 s = .next t → t.arch.err = .none →
    ∃ u, exec .enc58 (t.start (encode .enc58)) = .next u ∧ u.arch.err = .none ∧
      u.arch.textLen = s.arch.textLen ∧ u.arch.text = s.arch.text ∧ u.arch.convInfo = t.arch.convInfo

/-- R306, R48: a command whose operand bytes have all been written, or whose length is out of range so that it examines none
(R273), does not depend on the unspecified bytes: with other draws behind them it leaves the same registers and the same
written bytes (draws are the model's form of an unspecified byte, log entry 2). -/
def Obligations.WrittenOperandsDecideTheResult : Prop :=
  ∀ (i : Instr) (s : State) (dt db : Nat), operandsWritten s.cfg s.source i = true →
    ∃ t, exec i s = .next t ∧ exec i (s.redraw dt db) = .next (t.redraw dt db)

/-- The invariant holds after reset. R50 gives the registers; the draw numbers behind the unspecified buffers, which the
invariant has fresh and distinct, are the model's own (log entry 2), and so is the default build (log entry 1). -/
def Obligations.ResetMeetsTheInvariant : Prop := State.reset.Inv

/-- Every step keeps the invariant: a legal build, both buffers canonical and within capacity (so no command stores
beyond one, R147), code 2 never produced (R152), `RESULT` well shaped (R41), the running command's operands locked (R320),
and the draws behind unspecified bytes fresh. -/
def Obligations.EveryStepKeepsTheInvariant : Prop :=
  ∀ s t : State, s.Inv → step s = .next t → t.Inv

/-- R10, R80: `BASE` is 4096-aligned, the offset of `BASE + o` is `o` for the 4096 offsets of the window, and no other bus
address has an offset. -/
def Obligations.WindowIsFourKibAtBase : Prop :=
  Config.base % 4096 = 0 ∧ (∀ o < 4096, busOffset (Config.base + o) = some (BitVec.ofNat 12 o)) ∧
    ∀ a, a < Config.base ∨ Config.base + 4096 ≤ a → busOffset a = none
end

