-- ==== Sys2Proof/Laws/State.lean ====
section
/-! SUPPORT. One lemma per field of State per update, so that no proof unfolds a record update. -/

namespace Sys2Proof.Machine

/-! ### `State.start` -/

@[simp] theorem start_cfg (s : State) (w : Word) : (s.start w).cfg = s.cfg := rfl
@[simp] theorem start_arch (s : State) (w : Word) : (s.start w).arch = s.arch.started := rfl
@[simp] theorem start_engine (s : State) (w : Word) : (s.start w).engine = .busy w s.arch.started := rfl
@[simp] theorem start_draws (s : State) (w : Word) : (s.start w).draws = s.draws := rfl
@[simp] theorem start_inputs (s : State) (w : Word) : (s.start w).inputs = s.inputs := rfl
@[simp] theorem start_response (s : State) (w : Word) : (s.start w).response = s.response := rfl
@[simp] theorem start_source (s : State) (w : Word) : (s.start w).source = s.arch.started := rfl
@[simp] theorem start_busy (s : State) (w : Word) : (s.start w).busy = true := rfl
@[simp] theorem start_fetch (s : State) (w : Word) : (s.start w).fetch = some w := rfl

/-! ### `State.finish` -/

@[simp] theorem finish_cfg (s : State) (r : Ran) : (s.finish r).cfg = s.cfg := rfl
@[simp] theorem finish_engine (s : State) (r : Ran) : (s.finish r).engine = .idle := rfl
@[simp] theorem finish_draws (s : State) (r : Ran) : (s.finish r).draws = s.draws := rfl
@[simp] theorem finish_inputs (s : State) (r : Ran) : (s.finish r).inputs = s.inputs := rfl
@[simp] theorem finish_response (s : State) (r : Ran) : (s.finish r).response = s.response := rfl
@[simp] theorem finish_busy (s : State) (r : Ran) : (s.finish r).busy = false := rfl
@[simp] theorem finish_source (s : State) (r : Ran) : (s.finish r).source = (s.finish r).arch := rfl
@[simp] theorem finish_ie (s : State) (r : Ran) : (s.finish r).arch.ie = s.arch.ie := rfl
@[simp] theorem finish_ovr (s : State) (r : Ran) : (s.finish r).arch.ovr = s.arch.ovr := rfl
@[simp] theorem finish_done (s : State) (r : Ran) : (s.finish r).arch.done = true := rfl
@[simp] theorem finish_err (s : State) (r : Ran) : (s.finish r).arch.err = r.code := rfl
@[simp] theorem finish_errInfo (s : State) (r : Ran) : (s.finish r).arch.errInfo = r.info := rfl
@[simp] theorem finish_textLen (s : State) (r : Ran) : (s.finish r).arch.textLen = r.arch.textLen := rfl
@[simp] theorem finish_byteLen (s : State) (r : Ran) : (s.finish r).arch.byteLen = r.arch.byteLen := rfl
@[simp] theorem finish_result (s : State) (r : Ran) : (s.finish r).arch.result = r.arch.result := rfl
@[simp] theorem finish_convInfo (s : State) (r : Ran) : (s.finish r).arch.convInfo = r.arch.convInfo := rfl
@[simp] theorem finish_allow (s : State) (r : Ran) : (s.finish r).arch.allow = r.arch.allow := rfl
@[simp] theorem finish_digest (s : State) (r : Ran) : (s.finish r).arch.digest = r.arch.digest := rfl
@[simp] theorem finish_tb (s : State) (r : Ran) : (s.finish r).arch.tb = r.arch.tb := rfl
@[simp] theorem finish_bb (s : State) (r : Ran) : (s.finish r).arch.bb = r.arch.bb := rfl

/-! ### How a command's run ends -/

@[simp] theorem complete_arch (a : Arch) : (Ran.complete a).arch = a := rfl
@[simp] theorem complete_code (a : Arch) : (Ran.complete a).code = .none := rfl
@[simp] theorem complete_info (a : Arch) : (Ran.complete a).info = 0 := rfl
@[simp] theorem fail_arch (a : Arch) (r : Raise) : (Ran.fail a r).arch = a := rfl
@[simp] theorem fail_code (a : Arch) (r : Raise) : (Ran.fail a r).code = r.code := rfl
@[simp] theorem fail_info (a : Arch) (r : Raise) : (Ran.fail a r).info = r.info := rfl
@[simp] theorem complete_andThen (a : Arch) (f : Arch → Ran) : (Ran.complete a).andThen f = f a := rfl
@[simp] theorem fail_andThen (a : Arch) (r : Raise) (f : Arch → Ran) : (Ran.fail a r).andThen f = Ran.fail a r := rfl

/-! ### Writes of a command to the registers

The fields `put…` leaves alone are proved by cases, so that `simp` rewrites with them and the kernel never compares
a digest with a register bank by computing it. -/

@[simp] theorem putBytes_bb (a : Arch) (out : List Byte) : (a.putBytes out).bb = a.bb.writeRange 0 out := rfl
@[simp] theorem putBytes_byteLen (a : Arch) (out : List Byte) :
    (a.putBytes out).byteLen = BitVec.ofNat 16 out.length := rfl
@[simp] theorem putText_tb (a : Arch) (out : List Byte) : (a.putText out).tb = a.tb.writeRange 0 out := rfl
@[simp] theorem putText_textLen (a : Arch) (out : List Byte) :
    (a.putText out).textLen = BitVec.ofNat 16 out.length := rfl
@[simp] theorem putDigest_digest (a : Arch) (d : List Byte) : (a.putDigest d).digest = packDigest d := rfl
@[simp] theorem putBytes_ie (a : Arch) (out : List Byte) : (a.putBytes out).ie = a.ie := by cases a; rfl
@[simp] theorem putBytes_done (a : Arch) (out : List Byte) : (a.putBytes out).done = a.done := by cases a; rfl
@[simp] theorem putBytes_ovr (a : Arch) (out : List Byte) : (a.putBytes out).ovr = a.ovr := by cases a; rfl
@[simp] theorem putBytes_err (a : Arch) (out : List Byte) : (a.putBytes out).err = a.err := by cases a; rfl
@[simp] theorem putBytes_textLen (a : Arch) (out : List Byte) : (a.putBytes out).textLen = a.textLen := by cases a; rfl
@[simp] theorem putBytes_errInfo (a : Arch) (out : List Byte) : (a.putBytes out).errInfo = a.errInfo := by cases a; rfl
@[simp] theorem putBytes_result (a : Arch) (out : List Byte) : (a.putBytes out).result = a.result := by cases a; rfl
@[simp] theorem putBytes_convInfo (a : Arch) (out : List Byte) : (a.putBytes out).convInfo = a.convInfo := by cases a; rfl
@[simp] theorem putBytes_allow (a : Arch) (out : List Byte) : (a.putBytes out).allow = a.allow := by cases a; rfl
@[simp] theorem putBytes_digest (a : Arch) (out : List Byte) : (a.putBytes out).digest = a.digest := by cases a; rfl
@[simp] theorem putBytes_tb (a : Arch) (out : List Byte) : (a.putBytes out).tb = a.tb := by cases a; rfl
@[simp] theorem putText_ie (a : Arch) (out : List Byte) : (a.putText out).ie = a.ie := by cases a; rfl
@[simp] theorem putText_done (a : Arch) (out : List Byte) : (a.putText out).done = a.done := by cases a; rfl
@[simp] theorem putText_ovr (a : Arch) (out : List Byte) : (a.putText out).ovr = a.ovr := by cases a; rfl
@[simp] theorem putText_err (a : Arch) (out : List Byte) : (a.putText out).err = a.err := by cases a; rfl
@[simp] theorem putText_byteLen (a : Arch) (out : List Byte) : (a.putText out).byteLen = a.byteLen := by cases a; rfl
@[simp] theorem putText_errInfo (a : Arch) (out : List Byte) : (a.putText out).errInfo = a.errInfo := by cases a; rfl
@[simp] theorem putText_result (a : Arch) (out : List Byte) : (a.putText out).result = a.result := by cases a; rfl
@[simp] theorem putText_convInfo (a : Arch) (out : List Byte) : (a.putText out).convInfo = a.convInfo := by cases a; rfl
@[simp] theorem putText_allow (a : Arch) (out : List Byte) : (a.putText out).allow = a.allow := by cases a; rfl
@[simp] theorem putText_digest (a : Arch) (out : List Byte) : (a.putText out).digest = a.digest := by cases a; rfl
@[simp] theorem putText_bb (a : Arch) (out : List Byte) : (a.putText out).bb = a.bb := by cases a; rfl
@[simp] theorem putDigest_ie (a : Arch) (d : List Byte) : (a.putDigest d).ie = a.ie := by cases a; rfl
@[simp] theorem putDigest_done (a : Arch) (d : List Byte) : (a.putDigest d).done = a.done := by cases a; rfl
@[simp] theorem putDigest_ovr (a : Arch) (d : List Byte) : (a.putDigest d).ovr = a.ovr := by cases a; rfl
@[simp] theorem putDigest_err (a : Arch) (d : List Byte) : (a.putDigest d).err = a.err := by cases a; rfl
@[simp] theorem putDigest_textLen (a : Arch) (d : List Byte) : (a.putDigest d).textLen = a.textLen := by cases a; rfl
@[simp] theorem putDigest_byteLen (a : Arch) (d : List Byte) : (a.putDigest d).byteLen = a.byteLen := by cases a; rfl
@[simp] theorem putDigest_errInfo (a : Arch) (d : List Byte) : (a.putDigest d).errInfo = a.errInfo := by cases a; rfl
@[simp] theorem putDigest_result (a : Arch) (d : List Byte) : (a.putDigest d).result = a.result := by cases a; rfl
@[simp] theorem putDigest_convInfo (a : Arch) (d : List Byte) : (a.putDigest d).convInfo = a.convInfo := by cases a; rfl
@[simp] theorem putDigest_allow (a : Arch) (d : List Byte) : (a.putDigest d).allow = a.allow := by cases a; rfl
@[simp] theorem putDigest_tb (a : Arch) (d : List Byte) : (a.putDigest d).tb = a.tb := by cases a; rfl
@[simp] theorem putDigest_bb (a : Arch) (d : List Byte) : (a.putDigest d).bb = a.bb := by cases a; rfl
@[simp] theorem clearResult_result (a : Arch) : a.clearResult.result = 0 := rfl
@[simp] theorem clearResult_tb (a : Arch) : a.clearResult.tb = a.tb := rfl
@[simp] theorem clearResult_bb (a : Arch) : a.clearResult.bb = a.bb := rfl
@[simp] theorem clearResult_textLen (a : Arch) : a.clearResult.textLen = a.textLen := rfl
@[simp] theorem clearResult_byteLen (a : Arch) : a.clearResult.byteLen = a.byteLen := rfl
@[simp] theorem clearResult_allow (a : Arch) : a.clearResult.allow = a.allow := rfl
@[simp] theorem started_tb (a : Arch) : a.started.tb = a.tb := rfl
@[simp] theorem started_bb (a : Arch) : a.started.bb = a.bb := rfl
@[simp] theorem started_done (a : Arch) : a.started.done = false := rfl
@[simp] theorem started_err (a : Arch) : a.started.err = .none := rfl

/-! ### The engine -/

theorem source_of_idle {s : State} (h : s.engine = .idle) : s.source = s.arch := by simp [State.source, h]
theorem source_of_busy {s : State} {w : Word} {S : Arch} (h : s.engine = .busy w S) : s.source = S := by
  simp [State.source, h]
theorem busy_of_idle {s : State} (h : s.engine = .idle) : s.busy = false := by simp [State.busy, h]
theorem busy_of_busy {s : State} {w : Word} {S : Arch} (h : s.engine = .busy w S) : s.busy = true := by
  simp [State.busy, h]
theorem fetch_of_idle {s : State} (h : s.engine = .idle) : s.fetch = none := by simp [State.fetch, h]
theorem fetch_of_busy {s : State} {w : Word} {S : Arch} (h : s.engine = .busy w S) : s.fetch = some w := by
  simp [State.fetch, h]

theorem busy_eq_false_iff {s : State} : s.busy = false ↔ s.engine = .idle := by
  cases h : s.engine <;> simp [State.busy, h]

theorem busy_eq_true_iff {s : State} : s.busy = true ↔ ∃ w S, s.engine = .busy w S := by
  cases h : s.engine <;> simp [State.busy, h]

/-- Under `Coherent`, what a command runs on is the current register file, but for the host's own flags and those that
every completion overwrites. -/
theorem source_of_coherent {s : State} (h : s.Coherent) :
    s.source = { s.arch with ie := s.source.ie, ovr := s.source.ovr } := by
  cases hs : s.engine with
  | idle => simp [State.source, hs]
  | busy w S =>
    simp only [State.Coherent, hs] at h
    obtain ⟨h, -, -⟩ := h
    simp only [State.source, hs]
    rw [h]

end Sys2Proof.Machine
end

