-- ==== Sys2Proof/Laws/Flags.lean ====
section
/-! SUPPORT. The words that fields make, as numbers, and the packing of bytes. -/

namespace Sys2Proof.Machine

theorem lenRangeInfo_tb (n : BitVec 16) : lenRangeInfo .tb n = BitVec.ofNat 32 n.toNat := by
  apply BitVec.eq_of_toNat_eq
  simp [lenRangeInfo]

theorem lengthInfo_eq (n : Nat) : lengthInfo n = BitVec.ofNat 32 n := rfl

theorem or_eq_add_of_lt {a b k : Nat} (h : b < 2 ^ k) : a * 2 ^ k ||| b = a * 2 ^ k + b := by
  rw [Nat.mul_comm]
  exact (Nat.two_pow_add_eq_or_of_lt h a).symm

theorem lenRangeInfo_bb (n : BitVec 16) : lenRangeInfo .bb n = BitVec.ofNat 32 (65536 + n.toNat) := by
  apply BitVec.eq_of_toNat_eq
  have h := n.isLt
  have := or_eq_add_of_lt (a := 1) (k := 16) h
  have e : n.toNat % 4294967296 = n.toNat := Nat.mod_eq_of_lt (by omega)
  simp [lenRangeInfo, e] at this ⊢
  omega

theorem badSymbolInfo_eq {i : Nat} (c : Byte) (h : i < 65536) :
    badSymbolInfo i c = BitVec.ofNat 32 (c.toNat * 65536 + i) := by
  apply BitVec.eq_of_toNat_eq
  have hc := c.isLt
  have := or_eq_add_of_lt (a := c.toNat) (k := 16) h
  have e : i % 4294967296 = i := Nat.mod_eq_of_lt (by omega)
  have e' : c.toNat * 65536 % 4294967296 = c.toNat * 65536 := Nat.mod_eq_of_lt (by omega)
  simp [badSymbolInfo, Nat.shiftLeft_eq, e, e'] at this ⊢
  rw [this]
  omega

theorem versionInfo_eq (v : Byte) : versionInfo v = BitVec.ofNat 32 (v.toNat * 65536) := by
  apply BitVec.eq_of_toNat_eq
  simp [versionInfo, Nat.shiftLeft_eq]

theorem resultWord_eq (v : Byte) : resultWord v = BitVec.ofNat 32 (256 + v.toNat) := by
  apply BitVec.eq_of_toNat_eq
  have h := v.isLt
  have := or_eq_add_of_lt (a := 1) (k := 8) h
  have e : v.toNat % 4294967296 = v.toNat := Nat.mod_eq_of_lt (by omega)
  simp [resultWord, e] at this ⊢
  omega

theorem resultVersion_resultWord (v : Byte) : resultVersion (resultWord v) = v := by
  apply BitVec.eq_of_toNat_eq
  have h := v.isLt
  simp [resultVersion, resultWord_eq]
  omega

theorem resultValid_resultWord (v : Byte) : resultValid (resultWord v) = true := by
  simp [resultValid, resultWord]

@[simp] theorem resultValid_zero : resultValid 0 = false := rfl

/-- Byte `k` of a packed word is the `k`-th byte (R85). -/
theorem byteOf_packWord (b0 b1 b2 b3 : Byte) :
    byteOf (packWord b0 b1 b2 b3) 0 = b0 ∧ byteOf (packWord b0 b1 b2 b3) 1 = b1 ∧
      byteOf (packWord b0 b1 b2 b3) 2 = b2 ∧ byteOf (packWord b0 b1 b2 b3) 3 = b3 := by
  refine ⟨?_, ?_, ?_, ?_⟩ <;>
  · apply BitVec.eq_of_getLsbD_eq
    intro i hi
    simp only [byteOf, packWord, BitVec.getLsbD_extractLsb', BitVec.getLsbD_or, BitVec.getLsbD_setWidth,
      BitVec.getLsbD_shiftLeft]
    interval_cases i <;> simp

/-- A word is packed from its own bytes (R85). -/
theorem packWord_byteOf (w : Word) : packWord (byteOf w 0) (byteOf w 1) (byteOf w 2) (byteOf w 3) = w := by
  apply BitVec.eq_of_getLsbD_eq
  intro i hi
  simp only [byteOf, packWord, BitVec.getLsbD_extractLsb', BitVec.getLsbD_or, BitVec.getLsbD_setWidth,
    BitVec.getLsbD_shiftLeft]
  interval_cases i <;> simp

end Sys2Proof.Machine
end

