-- ==== Sys2Proof/Laws/Memory.lean ====
section
/-! SUPPORT. Buffers: a read after a write, the bytes a range write leaves alone, and the canonical form. -/

namespace Sys2Proof.Machine

theorem findCell_insertCell_same (i : Nat) (b : Byte) (cells : List Host.Cell) :
    findCell i (insertCell i b cells) = some b := by
  induction cells with
  | nil => simp [insertCell, findCell]
  | cons c rest ih =>
    obtain ⟨j, x⟩ := c
    simp only [insertCell]
    split
    · simp [findCell]
    · split
      · simp [findCell]
      · rename_i h; simp [findCell, h, ih]

theorem findCell_insertCell_ne {i k : Nat} (h : k ≠ i) (b : Byte) (cells : List Host.Cell) :
    findCell k (insertCell i b cells) = findCell k cells := by
  induction cells with
  | nil => simp [insertCell, findCell, h]
  | cons c rest ih =>
    obtain ⟨j, x⟩ := c
    simp only [insertCell]
    split
    · simp [findCell, h]
    · split
      · rename_i hij; subst hij; simp [findCell, h]
      · simp [findCell, ih]

@[simp] theorem write_draw (m : Memory) (i : Nat) (b : Byte) : (m.write i b).draw = m.draw := rfl

theorem read_write_same (m : Memory) (i : Nat) (b : Byte) : (m.write i b).read i = b := by
  simp [Memory.read, Memory.write, findCell_insertCell_same]

theorem read_write_ne {i k : Nat} (h : k ≠ i) (m : Memory) (b : Byte) : (m.write i b).read k = m.read k := by
  simp [Memory.read, Memory.write, findCell_insertCell_ne h]

theorem read_writeRange_outside {i a : Nat} (bs : List Byte) (m : Memory) (h : i < a ∨ a + bs.length ≤ i) :
    (m.writeRange a bs).read i = m.read i := by
  induction bs generalizing m a with
  | nil => rfl
  | cons b bs ih =>
    simp only [List.length_cons] at h
    rw [Memory.writeRange, ih _ (by omega), read_write_ne (by omega)]

theorem read_writeRange_inside {i a : Nat} {b : Byte} (bs : List Byte) (m : Memory) (h : bs[i]? = some b) :
    (m.writeRange a bs).read (a + i) = b := by
  induction bs generalizing m a i with
  | nil => simp at h
  | cons x bs ih =>
    cases i with
    | zero =>
      simp only [List.getElem?_cons_zero, Option.some.injEq] at h
      rw [Memory.writeRange, read_writeRange_outside _ _ (by omega), Nat.add_zero, read_write_same, h]
    | succ i =>
      rw [Memory.writeRange, show a + (i + 1) = a + 1 + i by omega]
      exact ih _ (by simpa using h)

/-- What a range write does, byte by byte. -/
theorem stored_writeRange (m : Memory) (a : Nat) (bs : List Byte) : m.Stored (m.writeRange a bs) a bs :=
  ⟨fun _ _ h => read_writeRange_inside _ _ h, fun _ h => read_writeRange_outside _ _ h⟩

@[simp] theorem writeRange_draw (m : Memory) (a : Nat) (bs : List Byte) : (m.writeRange a bs).draw = m.draw := by
  induction bs generalizing m a with
  | nil => rfl
  | cons b bs ih => simp [Memory.writeRange, ih]

@[simp] theorem readRange_length (m : Memory) (a n : Nat) : (m.readRange a n).length = n := by
  induction n generalizing a with
  | zero => rfl
  | succ n ih => simp [Memory.readRange, ih]

theorem readRange_getElem? (m : Memory) {a n i : Nat} (h : i < n) : (m.readRange a n)[i]? = some (m.read (a + i)) := by
  induction n generalizing a i with
  | zero => omega
  | succ n ih =>
    cases i with
    | zero => simp [Memory.readRange]
    | succ i =>
      rw [Memory.readRange, List.getElem?_cons_succ, ih (by omega), show a + 1 + i = a + (i + 1) by omega]

/-- Two buffers that agree on a range read the same there. -/
theorem readRange_congr {m m' : Memory} {a n : Nat} (h : ∀ i, a ≤ i → i < a + n → m.read i = m'.read i) :
    m.readRange a n = m'.readRange a n := by
  induction n generalizing a with
  | zero => rfl
  | succ n ih =>
    simp only [Memory.readRange]
    rw [h a (by omega) (by omega), ih fun i h1 h2 => h i (by omega) (by omega)]

/-- A buffer reads back what a range write stored. -/
theorem readRange_writeRange (m : Memory) (a : Nat) (bs : List Byte) :
    (m.writeRange a bs).readRange a bs.length = bs := by
  apply List.ext_getElem?
  intro i
  by_cases h : i < bs.length
  · rw [readRange_getElem? _ h, List.getElem?_eq_getElem h]
    exact congrArg some (read_writeRange_inside _ _ (List.getElem?_eq_getElem h))
  · rw [List.getElem?_eq_none (by simpa using h), List.getElem?_eq_none (by simpa using h)]

/-! ### Canonical form -/

theorem cellsRise_insertCell {cap lo i : Nat} (b : Byte) {cells : List Host.Cell} (h : cellsRise cap lo cells = true)
    (hlo : lo ≤ i) (hcap : i < cap) : cellsRise cap lo (insertCell i b cells) = true := by
  induction cells generalizing lo with
  | nil => simp [insertCell, cellsRise, hlo, hcap]
  | cons c rest ih =>
    obtain ⟨j, x⟩ := c
    simp only [cellsRise, Bool.and_eq_true, decide_eq_true_eq] at h
    obtain ⟨⟨h1, h2⟩, h3⟩ := h
    simp only [insertCell]
    split
    · simp [cellsRise, h2, h3, hlo, hcap]; omega
    · split
      · rename_i hij; subst hij; simp [cellsRise, h1, h2, h3]
      · simp [cellsRise, h1, h2, ih h3 (by omega)]

theorem wf_write {cap i : Nat} {m : Memory} (b : Byte) (h : m.wf cap = true) (hi : i < cap) :
    (m.write i b).wf cap = true :=
  cellsRise_insertCell b h (by omega) hi

theorem wf_writeRange {cap a : Nat} {m : Memory} (bs : List Byte) (h : m.wf cap = true) (ha : a + bs.length ≤ cap) :
    (m.writeRange a bs).wf cap = true := by
  induction bs generalizing m a with
  | nil => exact h
  | cons b bs ih =>
    simp only [List.length_cons] at ha
    exact ih (wf_write b h (by omega)) (by omega)

theorem wf_writeWord {cap j : Nat} {m : Memory} (w : Word) (h : m.wf cap = true) (h4 : cap % 4 = 0)
    (hj : 4 * j < cap) : (m.writeWord j w).wf cap = true :=
  wf_writeRange _ h (by simp; omega)

@[simp] theorem wf_unspecified (cap d : Nat) : (Memory.unspecified d).wf cap = true := rfl

@[simp] theorem writeWord_draw (m : Memory) (j : Nat) (w : Word) : (m.writeWord j w).draw = m.draw := by
  simp [Memory.writeWord]

theorem findCell_none_of_lt {cap lo i : Nat} {cells : List Host.Cell} (h : cellsRise cap lo cells = true) (hi : i < lo) :
    findCell i cells = none := by
  induction cells generalizing lo with
  | nil => rfl
  | cons c rest ih =>
    obtain ⟨j, x⟩ := c
    simp only [cellsRise, Bool.and_eq_true, decide_eq_true_eq] at h
    have : i ≠ j := by omega
    simp [findCell, this, ih h.2 (by omega)]

theorem head_le_of_findCell {cap lo cap' lo' i : Nat} {x : Byte} {rest cells' : List Host.Cell}
    (h : cellsRise cap lo ((i, x) :: rest) = true) (h' : cellsRise cap' lo' cells' = true)
    (he : ∀ k, findCell k ((i, x) :: rest) = findCell k cells') : ∃ rest', cells' = (i, x) :: rest' := by
  cases cells' with
  | nil => simpa [findCell] using he i
  | cons c rest' =>
    obtain ⟨j, y⟩ := c
    simp only [cellsRise, Bool.and_eq_true, decide_eq_true_eq] at h h'
    rcases Nat.lt_trichotomy i j with hij | hij | hij
    · have := he i
      simp [findCell, Nat.ne_of_lt hij, findCell_none_of_lt h'.2 (show i < j + 1 by omega)] at this
    · subst hij
      have := he i
      simp [findCell] at this
      subst this
      exact ⟨_, rfl⟩
    · have := he j
      simp [findCell, Nat.ne_of_lt hij, findCell_none_of_lt h.2 (show j < i + 1 by omega)] at this

/-- In canonical form, equal contents are equal data. -/
theorem cells_ext {cap cap' lo lo' : Nat} {cells cells' : List Host.Cell} (h : cellsRise cap lo cells = true)
    (h' : cellsRise cap' lo' cells' = true) (he : ∀ k, findCell k cells = findCell k cells') : cells = cells' := by
  induction cells generalizing lo lo' cells' with
  | nil =>
    cases cells' with
    | nil => rfl
    | cons c rest => obtain ⟨j, y⟩ := c; simpa [findCell] using he j
  | cons c rest ih =>
    obtain ⟨i, x⟩ := c
    obtain ⟨rest', rfl⟩ := head_le_of_findCell h h' he
    simp only [cellsRise, Bool.and_eq_true, decide_eq_true_eq] at h h'
    rw [ih h.2 h'.2 fun k => ?_]
    by_cases hk : k = i
    · subst hk
      rw [findCell_none_of_lt h.2 (by omega), findCell_none_of_lt h'.2 (by omega)]
    · simpa [findCell, hk] using he k

/-! ### Written ranges -/

theorem rangeWritten_iff {cap n : Nat} {m : Memory} :
    rangeWritten cap n m = true ↔ cap < n ∨ ∀ i < n, m.written i = true := by
  simp [rangeWritten]

/-- R306: a written byte does not depend on the draw behind the unwritten ones. -/
theorem read_of_written {m : Memory} {i : Nat} (h : m.written i = true) (d : Nat) :
    ({ m with draw := d } : Memory).read i = m.read i := by
  unfold Memory.written at h
  unfold Memory.read
  cases hf : findCell i m.cells with
  | none => simp [hf] at h
  | some b => rfl

end Sys2Proof.Machine
end

