-- ==== Sys2Proof/Laws/Ops.lean ====
section
/-! SUPPORT. One specification lemma per clause of each shared operation and each command body: what it answers when
its checks pass, and what it answers when one fails. -/

namespace Sys2Proof.Machine

variable {c : Config} {a : Arch}

/-! ### Operands -/

theorem textOperand_of_gt (h : c.textCap < a.textLen.toNat) :
    textOperand c a = .error { code := .lenRange, info := lenRangeInfo .tb a.textLen } := by
  simp [textOperand, h]

theorem textOperand_of_le (h : a.textLen.toNat ≤ c.textCap) : textOperand c a = .ok a.text := by
  simp [textOperand, Nat.not_lt.mpr h, Arch.text]

theorem byteOperand_of_gt (h : c.byteCap < a.byteLen.toNat) :
    byteOperand c a = .error { code := .lenRange, info := lenRangeInfo .bb a.byteLen } := by
  simp [byteOperand, h]

theorem byteOperand_of_le (h : a.byteLen.toNat ≤ c.byteCap) : byteOperand c a = .ok a.bytes := by
  simp [byteOperand, Nat.not_lt.mpr h, Arch.bytes]

@[simp] theorem text_length (a : Arch) : a.text.length = a.textLen.toNat := readRange_length _ _ _
@[simp] theorem bytes_length (a : Arch) : a.bytes.length = a.byteLen.toNat := readRange_length _ _ _

/-! ### DEC58 and ENC58 -/

theorem dec58Body_of_gt (h : c.textCap < a.textLen.toNat) :
    dec58Body c a = Ran.fail a { code := .lenRange, info := lenRangeInfo .tb a.textLen } := by
  simp [dec58Body, textOperand_of_gt h]

theorem dec58Body_of_err {i : Nat} {b : Byte} (h : a.textLen.toNat ≤ c.textCap)
    (hp : toInteger 58 lookup58 a.text = .err i b) :
    dec58Body c a = Ran.fail a { code := .badSymbol, info := badSymbolInfo i b } := by
  simp [dec58Body, textOperand_of_le h, hp]

theorem dec58Body_of_ok {v k : Nat} (h : a.textLen.toNat ≤ c.textCap) (hp : toInteger 58 lookup58 a.text = .ok v k) :
    dec58Body c a =
      Ran.complete { a.putBytes (fromInteger v k 256 sym256) with convInfo := BitVec.ofNat 16 k } := by
  simp [dec58Body, textOperand_of_le h, hp]

theorem toIntegerFrom_256_ok (s : List Byte) (i v k : Nat) : ∃ v' k', toIntegerFrom 256 lookup256 s i v k = .ok v' k' := by
  induction s generalizing i v k with
  | nil => exact ⟨v, k, rfl⟩
  | cons c rest ih => exact ih _ _ _

/-- R151: `to_integer` in radix 256 cannot fail. -/
theorem toInteger_256_ok (s : List Byte) : ∃ v k, toInteger 256 lookup256 s = .ok v k := toIntegerFrom_256_ok s 0 0 0

theorem enc58Body_of_gt (h : c.byteCap < a.byteLen.toNat) :
    enc58Body c a = Ran.fail a { code := .lenRange, info := lenRangeInfo .bb a.byteLen } := by
  simp [enc58Body, byteOperand_of_gt h]

theorem enc58Body_of_overflow {v k : Nat} (h : a.byteLen.toNat ≤ c.byteCap)
    (hp : toInteger 256 lookup256 a.bytes = .ok v k) (ho : c.textCap < (fromInteger v k 58 sym58).length) :
    enc58Body c a = Ran.fail a { code := .overflow, info := lengthInfo (fromInteger v k 58 sym58).length } := by
  simp [enc58Body, byteOperand_of_le h, hp, enc58Store, ho]

theorem enc58Body_of_ok {v k : Nat} (h : a.byteLen.toNat ≤ c.byteCap)
    (hp : toInteger 256 lookup256 a.bytes = .ok v k) (ho : (fromInteger v k 58 sym58).length ≤ c.textCap) :
    enc58Body c a = Ran.complete { a.putText (fromInteger v k 58 sym58) with convInfo := BitVec.ofNat 16 k } := by
  simp [enc58Body, byteOperand_of_le h, hp, enc58Store, Nat.not_lt.mpr ho]

/-! ### HASH2, CHKVER and CHKAPP -/

theorem hash2Body_of_gt (h : c.byteCap < a.byteLen.toNat) :
    hash2Body c a = Ran.fail a { code := .lenRange, info := lenRangeInfo .bb a.byteLen } := by
  simp [hash2Body, byteOperand_of_gt h]

theorem hash2Body_of_le (h : a.byteLen.toNat ≤ c.byteCap) :
    hash2Body c a = Ran.complete (a.putDigest (Sha.dsha a.bytes)) := by
  simp [hash2Body, byteOperand_of_le h]

theorem payloadLength_eq (n : Nat) : payloadLength n = n - 4 := by
  unfold payloadLength
  split <;> omega

theorem be32_length (x : Word) : (Sha.be32 x).length = 4 := rfl

theorem bankBytes_length (h : Bank) : (Sha.bankBytes h).length = 32 := rfl

@[simp] theorem sha256_length (m : List Byte) : (Sha.sha256 m).length = 32 := bankBytes_length _

@[simp] theorem dsha_length (m : List Byte) : (Sha.dsha m).length = 32 := sha256_length _

/-- The comparator of CHKVER is true exactly when the checksum holds (R220, R221, R223). -/
theorem eq4_checksum (bytes : List Byte) :
    eq4 ((Sha.dsha (bytes.take (payloadLength bytes.length))).take 4) (bytes.drop (payloadLength bytes.length)) =
      decide (checksumHolds bytes) := by
  rw [payloadLength_eq, Bool.eq_iff_iff]
  simp only [eq4, checksumHolds, Bool.and_eq_true, decide_eq_true_eq, List.length_take, List.length_drop, dsha_length]
  exact ⟨fun h => ⟨by omega, h.2⟩, fun h => ⟨⟨by omega, by omega⟩, h.2⟩⟩

theorem chkverBody_of_gt (h : c.byteCap < a.byteLen.toNat) :
    chkverBody c a = Ran.fail a { code := .lenRange, info := lenRangeInfo .bb a.byteLen } := by
  simp [chkverBody, byteOperand_of_gt h]

theorem chkverBody_of_match (h : a.byteLen.toNat ≤ c.byteCap) (hc : checksumHolds a.bytes) :
    chkverBody c a =
      Ran.complete
        { a.putDigest (Sha.dsha (a.bytes.take (a.byteLen.toNat - 4))) with
          byteLen := BitVec.ofNat 16 (a.byteLen.toNat - 4) } := by
  have e := eq4_checksum a.bytes
  rw [decide_eq_true hc] at e
  simp only [chkverBody, byteOperand_of_le h]
  rw [if_pos e, payloadLength_eq, bytes_length]

theorem chkverBody_of_mismatch (h : a.byteLen.toNat ≤ c.byteCap) (hc : ¬ checksumHolds a.bytes) :
    chkverBody c a =
      Ran.fail (a.putDigest (Sha.dsha (a.bytes.take (a.byteLen.toNat - 4))))
        { code := .checksum, info := lengthInfo a.byteLen.toNat } := by
  have e := eq4_checksum a.bytes
  rw [decide_eq_false hc] at e
  simp only [chkverBody, byteOperand_of_le h]
  rw [if_neg (by rw [e]; simp), payloadLength_eq, bytes_length]

theorem chkappBody_of_gt (h : c.byteCap < a.byteLen.toNat) :
    chkappBody c a = Ran.fail a { code := .lenRange, info := lenRangeInfo .bb a.byteLen } := by
  simp [chkappBody, byteOperand_of_gt h]

theorem chkappBody_of_overflow (h : a.byteLen.toNat ≤ c.byteCap) (ho : c.byteCap < a.byteLen.toNat + 4) :
    chkappBody c a = Ran.fail a { code := .overflow, info := lengthInfo (a.byteLen.toNat + 4) } := by
  simp [chkappBody, byteOperand_of_le h, ho]

theorem chkappBody_of_fits (ho : a.byteLen.toNat + 4 ≤ c.byteCap) :
    chkappBody c a =
      Ran.complete
        { a.putDigest (Sha.dsha a.bytes) with
          bb := a.bb.writeRange a.byteLen.toNat ((Sha.dsha a.bytes).take 4)
          byteLen := BitVec.ofNat 16 (a.byteLen.toNat + 4) } := by
  have h : a.byteLen.toNat ≤ c.byteCap := by omega
  simp [chkappBody, byteOperand_of_le h, Nat.not_lt.mpr ho]

/-! ### ADDR -/

theorem addrChecks_of_gt (h : c.byteCap < a.byteLen.toNat) :
    addrChecks c a = Ran.fail a { code := .lenRange, info := lenRangeInfo .bb a.byteLen } := by
  simp [addrChecks, byteOperand_of_gt h]

theorem addrChecks_of_length (h : a.byteLen.toNat ≤ c.byteCap) (hn : a.byteLen.toNat ≠ 21) :
    addrChecks c a = Ran.fail a { code := .length, info := lengthInfo a.byteLen.toNat } := by
  simp [addrChecks, byteOperand_of_le h, hn]

theorem addrChecks_of_version (h : a.byteLen.toNat ≤ c.byteCap) (hn : a.byteLen.toNat = 21)
    (hv : allowed a.allow (a.bb.read 0) = false) :
    addrChecks c a = Ran.fail a { code := .version, info := versionInfo (a.bb.read 0) } := by
  simp [addrChecks, byteOperand_of_le h, hn, hv]

theorem addrChecks_of_allowed (h : a.byteLen.toNat ≤ c.byteCap) (hn : a.byteLen.toNat = 21)
    (hv : allowed a.allow (a.bb.read 0) = true) :
    addrChecks c a = Ran.complete { a with result := resultWord (a.bb.read 0) } := by
  simp [addrChecks, byteOperand_of_le h, hn, hv]

/-! ### The digest registers -/

/-- R44: the packed bank holds the digest. -/
theorem packDigest_holds {d : List Byte} (h : d.length = 32) : (packDigest d).Holds d := by
  intro i k
  have hb := byteOf_packWord
  have hi := i.isLt
  have hk := k.isLt
  have hlt : 4 * i.val + k.val < d.length := by omega
  rw [List.getElem?_eq_getElem hlt]
  have e : (packDigest d).get i = digestWord d i.val := by
    fin_cases i <;> rfl
  rw [e]
  refine congrArg some ?_
  have key := hb (d.getD (4 * i.val) 0) (d.getD (4 * i.val + 1) 0) (d.getD (4 * i.val + 2) 0) (d.getD (4 * i.val + 3) 0)
  obtain ⟨k0, k1, k2, k3⟩ := key
  have hget : d[4 * i.val + k.val] = d.getD (4 * i.val + k.val) 0 := by
    simp [List.getD_eq_getElem?_getD, List.getElem?_eq_getElem hlt]
  rw [hget]
  fin_cases k
  · exact k0.symm
  · exact k1.symm
  · exact k2.symm
  · exact k3.symm

end Sys2Proof.Machine
end

