-- ==== Sys2Proof/Laws/Step.lean ====
section
/-! SUPPORT. What a command, the engine's turn, a host access and a step can do, each said once. -/

namespace Sys2Proof.Machine

/-! ### Commands -/

/-- The body of each command (R123). -/
def commandBody (c : Config) (a : Arch) : Instr → Ran
  | .nop => Ran.complete a
  | .dec58 => dec58Body c a
  | .enc58 => enc58Body c a
  | .hash2 => hash2Body c a
  | .chkver => chkverBody c a
  | .chkapp => chkappBody c a
  | .addr => addrBody c a
  | .validate => validateBody c a

/-- R123: a command completes with what its body leaves. -/
theorem exec_eq (i : Instr) (s : State) : exec i s = .next (s.finish (commandBody s.cfg s.source i)) := by
  cases i <;> rfl

theorem exec_next {i : Instr} {s t : State} (h : exec i s = .next t) :
    t = s.finish (commandBody s.cfg s.source i) := by
  rw [exec_eq] at h
  exact (Host.Outcome.next.inj h).symm

theorem engineTurn_of_idle {s : State} (h : s.engine = .idle) : engineTurn s = .next s := by
  simp [engineTurn, fetch_of_idle h]

theorem engineTurn_of_ok {s : State} {w : Word} {S : Arch} {i : Instr} (h : s.engine = .busy w S)
    (hd : decode w = .ok i) : engineTurn s = exec i s := by
  simp [engineTurn, fetch_of_busy h, hd]

theorem engineTurn_of_error {s : State} {w : Word} {S : Arch} {e : BadCmd} (h : s.engine = .busy w S)
    (hd : decode w = .error e) : engineTurn s = .next (s.finishBadCmd w) := by
  simp [engineTurn, fetch_of_busy h, hd]

/-- The engine's turn: an idle engine does nothing; a running one finishes with its command's run, or with `BAD_CMD`. -/
theorem engineTurn_cases (s : State) :
    (s.engine = .idle ∧ engineTurn s = .next s) ∨
      ∃ w S r, s.engine = .busy w S ∧ engineTurn s = .next (s.finish r) ∧
        ((∃ i, decode w = .ok i ∧ r = commandBody s.cfg S i) ∨
          (∃ e, decode w = .error e) ∧ r = Ran.fail S { code := .badCmd, info := w }) := by
  cases hs : s.engine with
  | idle => exact .inl ⟨rfl, engineTurn_of_idle hs⟩
  | busy w S =>
    refine .inr ⟨w, S, ?_⟩
    cases hd : decode w with
    | ok i => exact ⟨_, rfl, by rw [engineTurn_of_ok hs hd, exec_eq], .inl ⟨i, rfl, by rw [source_of_busy hs]⟩⟩
    | error e =>
      exact ⟨_, rfl, engineTurn_of_error hs hd, .inr ⟨⟨e, rfl⟩, by rw [source_of_busy hs]⟩⟩

/-! ### Host accesses -/

theorem regAt_allow : ∀ i : Fin 8, regAt (BitVec.ofNat 12 (0x040 + 4 * i.val)) = .allow i := by decide

theorem regAt_digest : ∀ i : Fin 8, regAt (BitVec.ofNat 12 (0x060 + 4 * i.val)) = .digest i := by decide

theorem regAt_tb {j : Nat} (h : j < 64) : regAt (BitVec.ofNat 12 (0x100 + 4 * j)) = .tb j := by
  have : ∀ j : Fin 64, regAt (BitVec.ofNat 12 (0x100 + 4 * j.val)) = .tb j.val := by decide
  exact this ⟨j, h⟩

theorem regAt_bb {j : Nat} (h : j < 64) : regAt (BitVec.ofNat 12 (0x200 + 4 * j)) = .bb j := by
  have : ∀ j : Fin 64, regAt (BitVec.ofNat 12 (0x200 + 4 * j.val)) = .bb j.val := by decide
  exact this ⟨j, h⟩

/-- R90, R92: a read changes at most the answer and the next draw. -/
theorem hostRead_eq (s : State) (off : BitVec 12) :
    ∃ v d, s.hostRead off = { s with response := some (.data v), draws := d } ∧ s.draws ≤ d := by
  unfold State.hostRead
  split
  · exact ⟨_, _, rfl, Nat.le_succ _⟩
  · exact ⟨_, s.draws, rfl, Nat.le_refl _⟩

/-- R33 to R43, R85: a register write that only stores. -/
inductive PlainWrite (c : Config) (w : Word) : (Arch → Arch) → Prop where
  | textLen : PlainWrite c w fun a => { a with textLen := w.extractLsb' 0 16 }
  | byteLen : PlainWrite c w fun a => { a with byteLen := w.extractLsb' 0 16 }
  | allow (i : Fin 8) : PlainWrite c w fun a => { a with allow := a.allow.set i w }
  | tb (j : Nat) (h : 4 * j < c.textCap) : PlainWrite c w fun a => { a with tb := a.tb.writeWord j w }
  | bb (j : Nat) (h : 4 * j < c.byteCap) : PlainWrite c w fun a => { a with bb := a.bb.writeWord j w }

/-- R91, R320: everything a host write of `w` can do to the block. -/
inductive WriteEffect (s : State) (w : Word) : State → Prop where
  | ignored : WriteEffect s w s
  | overrun (h : s.busy = true) : WriteEffect s w { s with arch := { s.arch with ovr := true } }
  | start (h : s.busy = false) : WriteEffect s w (s.start w)
  | softReset (h : w.getLsbD 1 = true) : WriteEffect s w s.softReset
  | enable (h : w.getLsbD 1 = false) : WriteEffect s w { s with arch := { s.arch with ie := w.getLsbD 0 } }
  | status : WriteEffect s w (s.writeStatus w)
  | plain (h : s.busy = false) (f : Arch → Arch) (hf : PlainWrite s.cfg w f) :
      WriteEffect s w { s with arch := f s.arch }

theorem lockedWrite_effect {s : State} {w : Word} {f : Arch → Arch} (hf : PlainWrite s.cfg w f) :
    WriteEffect s w (s.lockedWrite f) := by
  unfold State.lockedWrite
  split
  · exact .overrun ‹_›
  · exact .plain (by simpa using ‹¬ s.busy = true›) f hf

/-- R91: a host write of any register has one of these effects. -/
theorem writeReg_effect (s : State) (w : Word) (r : Reg) : WriteEffect s w (s.writeReg w r) := by
  cases r with
  | id => exact .ignored
  | hwcfg => exact .ignored
  | errInfo => exact .ignored
  | result => exact .ignored
  | convInfo => exact .ignored
  | digest => exact .ignored
  | reserved => exact .ignored
  | status => exact .status
  | textLen => exact lockedWrite_effect .textLen
  | byteLen => exact lockedWrite_effect .byteLen
  | allow i => exact lockedWrite_effect (.allow i)
  | ctrl =>
    simp only [State.writeReg, State.writeCtrl]
    split
    · exact .softReset ‹_›
    · exact .enable (by simpa using ‹¬ w.getLsbD 1 = true›)
  | cmd =>
    simp only [State.writeReg, State.writeCmd]
    split
    · exact .overrun ‹_›
    · exact .start (by simpa using ‹¬ s.busy = true›)
  | tb j =>
    simp only [State.writeReg]
    split
    · exact lockedWrite_effect (.tb j ‹_›)
    · exact .ignored
  | bb j =>
    simp only [State.writeReg]
    split
    · exact lockedWrite_effect (.bb j ‹_›)
    · exact .ignored

/-- R302, R303: the three forms of a soft reset. -/
theorem softReset_cases (s : State) :
    s.softReset = { s with arch := Arch.reset s.arch.tb s.arch.bb, engine := .idle } ∨
      s.softReset =
        { s with arch := Arch.reset (Memory.unspecified s.draws) s.arch.bb, engine := .idle, draws := s.draws + 1 } ∨
      s.softReset =
        { s with arch := Arch.reset s.arch.tb (Memory.unspecified s.draws), engine := .idle, draws := s.draws + 1 } := by
  unfold State.softReset
  cases s.clobbered with
  | none => exact .inl rfl
  | some b => cases b <;> simp

/-- R89 to R91: a host access answers and has a read's or a write's effect; a refused one only answers. -/
theorem busAccess_cases (s : State) (a : Access) :
    s.busAccess a = { s with response := some (.fault .busError) } ∨
      (∃ v d, s.busAccess a = { s with response := some (.data v), draws := d } ∧ s.draws ≤ d) ∨
      ∃ w u, WriteEffect s w u ∧ s.busAccess a = { u with response := some .written } := by
  unfold State.busAccess
  split
  · cases a.op with
    | read => exact .inr (.inl (hostRead_eq s a.off))
    | write w => exact .inr (.inr ⟨w, _, writeReg_effect s w _, rfl⟩)
  · exact .inl rfl

@[simp] theorem writeStatus_cfg (s : State) (w : Word) : (s.writeStatus w).cfg = s.cfg := rfl
@[simp] theorem writeStatus_engine (s : State) (w : Word) : (s.writeStatus w).engine = s.engine := rfl
@[simp] theorem writeStatus_inputs (s : State) (w : Word) : (s.writeStatus w).inputs = s.inputs := rfl
@[simp] theorem writeStatus_draws (s : State) (w : Word) : (s.writeStatus w).draws = s.draws := rfl

theorem softReset_cfg (s : State) : s.softReset.cfg = s.cfg := by
  rcases softReset_cases s with h | h | h <;> rw [h]

theorem softReset_inputs (s : State) : s.softReset.inputs = s.inputs := by
  rcases softReset_cases s with h | h | h <;> rw [h]

/-- No host access changes the parameters or the pending actions. -/
theorem busAccess_keeps (s : State) (a : Access) :
    (s.busAccess a).cfg = s.cfg ∧ (s.busAccess a).inputs = s.inputs := by
  rcases busAccess_cases s a with h | ⟨v, d, h, -⟩ | ⟨w, u, hu, h⟩
  · rw [h]; exact ⟨rfl, rfl⟩
  · rw [h]; exact ⟨rfl, rfl⟩
  · rw [h]
    cases hu <;> simp [softReset_cfg, softReset_inputs]

/-! ### Steps -/

/-- A step is the engine's turn or one pending action taken from the front. -/
theorem step_cases (s : State) :
    (s.inputs = [] ∧ step s = engineTurn s) ∨
      ∃ x rest, s.inputs = x :: rest ∧ step s = act { s with inputs := rest } x := by
  cases h : s.inputs with
  | nil => exact .inl ⟨rfl, by simp [step, h]⟩
  | cons x rest => exact .inr ⟨x, rest, rfl, by simp [step, h]⟩

end Sys2Proof.Machine
end

