-- ==== Sys2Proof/Laws/Bus.lean ====
section
/-! SUPPORT. The register window: what an accepted 32-bit read or write does at each register, and the soft reset. -/

namespace Sys2Proof.Machine

/-! ### Accepted accesses -/

theorem accepted_write32 {off : BitVec 12} (h : off.toNat % 4 = 0) (w : Word) : accepted (write32 off w) = true := by
  simp [accepted, write32, h]

theorem accepted_read32 {off : BitVec 12} (h : off.toNat % 4 = 0) : accepted (read32 off) = true := by
  simp [accepted, read32, h]

/-- R91: an aligned 32-bit write has the effect of its register, and is answered. -/
theorem busAccess_write32 (s : State) {off : BitVec 12} (h : off.toNat % 4 = 0) (w : Word) :
    s.busAccess (write32 off w) = { s.writeReg w (regAt off) with response := some .written } := by
  simp [State.busAccess, accepted_write32 h w]
  rfl

/-- R90: an aligned 32-bit read is a host read. -/
theorem busAccess_read32 (s : State) {off : BitVec 12} (h : off.toNat % 4 = 0) :
    s.busAccess (read32 off) = s.hostRead off := by
  simp [State.busAccess, accepted_read32 h]
  rfl

/-- R90: a read of a register that is not hidden returns it and changes nothing else. -/
theorem busAccess_read32_of_visible (s : State) {off : BitVec 12} (h4 : off.toNat % 4 = 0)
    (h : s.busy = false ∨ hiddenWhileBusy s.cfg (regAt off) = false) :
    s.busAccess (read32 off) = { s with response := some (.data (s.readReg (regAt off))) } := by
  rw [busAccess_read32 s h4]
  unfold State.hostRead
  rw [if_neg]
  rcases h with h | h <;> simp [h]

/-- R90: the answer to a read of a register that is not hidden. -/
theorem answerTo_of_visible (s : State) {off : BitVec 12} (h4 : off.toNat % 4 = 0)
    (h : s.busy = false ∨ hiddenWhileBusy s.cfg (regAt off) = false) :
    s.answerTo off = some (.data (s.readReg (regAt off))) := by
  rw [State.answerTo, busAccess_read32_of_visible s h4 h]

/-- R33: a write of `CTRL`. -/
theorem busAccess_ctrl (s : State) (w : Word) :
    s.busAccess (write32 0x008 w) = { s.writeCtrl w with response := some .written } :=
  (busAccess_write32 s (off := 0x008) (by decide) w).trans rfl

/-- R34: a write of `CMD`. -/
theorem busAccess_cmd (s : State) (w : Word) :
    s.busAccess (write32 0x00C w) = { s.writeCmd w with response := some .written } :=
  (busAccess_write32 s (off := 0x00C) (by decide) w).trans rfl

/-! ### Locked writes and the allow-list -/

theorem lockedWrite_of_busy {s : State} (h : s.busy = true) (f : Arch → Arch) :
    s.lockedWrite f = { s with arch := { s.arch with ovr := true } } := by
  simp [State.lockedWrite, h]

theorem lockedWrite_of_idle {s : State} (h : s.busy = false) (f : Arch → Arch) :
    s.lockedWrite f = { s with arch := f s.arch } := by
  simp [State.lockedWrite, h]

theorem get_set (b : Bank) (i j : Fin 8) (w : Word) : (b.set i w).get j = if j = i then w else b.get j := by
  fin_cases i <;> fin_cases j <;> rfl

/-! ### Buffer words -/

/-- R85: byte `k` of a buffer word. -/
theorem readWord_byte (m : Memory) (j : Nat) (k : Fin 4) :
    (m.readWord j).extractLsb' (8 * k.val) 8 = m.read (4 * j + k.val) := by
  obtain ⟨k0, k1, k2, k3⟩ :=
    byteOf_packWord (m.read (4 * j)) (m.read (4 * j + 1)) (m.read (4 * j + 2)) (m.read (4 * j + 3))
  fin_cases k
  · exact k0
  · exact k1
  · exact k2
  · exact k3

/-- R85: a buffer word reads back as written. -/
theorem readWord_writeWord (m : Memory) (j : Nat) (w : Word) : (m.writeWord j w).readWord j = w := by
  have hs := stored_writeRange m (4 * j) [byteOf w 0, byteOf w 1, byteOf w 2, byteOf w 3]
  unfold Memory.readWord Memory.writeWord
  have h0 := hs.1 0 _ rfl
  have h1 := hs.1 1 _ rfl
  have h2 := hs.1 2 _ rfl
  have h3 := hs.1 3 _ rfl
  rw [Nat.add_zero] at h0
  rw [h0, h1, h2, h3, packWord_byteOf]

/-! ### Reset -/

/-- R302: after a soft reset every register is at its reset value and the engine is Idle. -/
theorem softReset_arch (s : State) :
    s.softReset.arch = Arch.reset s.softReset.arch.tb s.softReset.arch.bb ∧ s.softReset.engine = .idle := by
  rcases softReset_cases s with h | h | h <;> rw [h] <;> exact ⟨rfl, rfl⟩

/-- The reset buffers are in canonical form, for every capacity. -/
theorem wf_reset (cap : Nat) : State.reset.arch.tb.wf cap = true ∧ State.reset.arch.bb.wf cap = true := ⟨rfl, rfl⟩

/-! ### Accesses while Busy -/

theorem lockedWrite_engine {s : State} (h : s.busy = true) (f : Arch → Arch) : (s.lockedWrite f).engine = s.engine := by
  rw [lockedWrite_of_busy h]

/-- R122, R320: a register write while Busy leaves the engine as it is, short of a soft reset. -/
theorem writeReg_engine_of_busy {s : State} (hb : s.busy = true) {w : Word} {r : Reg}
    (hr : ¬ (r = .ctrl ∧ w.getLsbD 1 = true)) : (s.writeReg w r).engine = s.engine := by
  cases r with
  | ctrl =>
    have h1 : w.getLsbD 1 = false := by simpa using hr
    simp only [State.writeReg, State.writeCtrl, h1, Bool.false_eq_true, if_false]
  | cmd => simp [State.writeReg, State.writeCmd, hb]
  | textLen => exact lockedWrite_engine hb _
  | byteLen => exact lockedWrite_engine hb _
  | allow i => exact lockedWrite_engine hb _
  | tb j =>
    simp only [State.writeReg]
    split
    · exact lockedWrite_engine hb _
    · rfl
  | bb j =>
    simp only [State.writeReg]
    split
    · exact lockedWrite_engine hb _
    · rfl
  | _ => rfl

/-- R122, R320: a host access while Busy leaves the engine as it is, short of a soft reset. -/
theorem busAccess_engine_of_busy {s : State} (hb : s.busy = true) {a : Access} (ha : softResets a = false) :
    (s.busAccess a).engine = s.engine := by
  unfold State.busAccess
  split
  · rename_i hacc
    cases hop : a.op with
    | read =>
      obtain ⟨v, d, h, -⟩ := hostRead_eq s a.off
      simp only [h]
    | write w =>
      refine writeReg_engine_of_busy hb ?_
      rintro ⟨h1, h2⟩
      simp only [softResets, hop, hacc, h1, h2, decide_true, Bool.and_self, Bool.true_eq_false] at ha
  · rfl

end Sys2Proof.Machine
end

