-- ==== Sys2Proof/Laws/Frames.lean ====
section
/-! SUPPORT. The frame of each command body, as one equation: the fields named may change, every other is as before. -/

namespace Sys2Proof.Machine

variable {c : Config} {a : Arch}

theorem putDigest_frame (a : Arch) (d : List Byte) : ∃ D, a.putDigest d = { a with digest := D } := ⟨_, rfl⟩

/-- R150: DEC58 writes at most `BB`, `BYTE_LEN` and `CONV_INFO`. -/
theorem dec58Body_frame (c : Config) (a : Arch) :
    ∃ m n k, (dec58Body c a).arch = { a with bb := m, byteLen := n, convInfo := k } := by
  unfold dec58Body
  split
  · exact ⟨_, _, _, rfl⟩
  · split
    · exact ⟨_, _, _, rfl⟩
    · exact ⟨_, _, _, rfl⟩

/-- R151: ENC58 writes at most `TB`, `TEXT_LEN` and `CONV_INFO`. -/
theorem enc58Body_frame (c : Config) (a : Arch) :
    ∃ m n k, (enc58Body c a).arch = { a with tb := m, textLen := n, convInfo := k } := by
  unfold enc58Body enc58Store
  split
  · exact ⟨_, _, _, rfl⟩
  · split
    · exact ⟨_, _, _, rfl⟩
    · split
      · exact ⟨_, _, _, rfl⟩
      · exact ⟨_, _, _, rfl⟩

/-- R192: HASH2 writes at most `DIGEST`. -/
theorem hash2Body_frame (c : Config) (a : Arch) : ∃ D, (hash2Body c a).arch = { a with digest := D } := by
  rcases Nat.lt_or_ge c.byteCap a.byteLen.toNat with h | h
  · rw [hash2Body_of_gt h]
    exact ⟨_, rfl⟩
  · rw [hash2Body_of_le h]
    exact putDigest_frame _ _

/-- R220: CHKVER writes at most `DIGEST` and `BYTE_LEN`. -/
theorem chkverBody_frame (c : Config) (a : Arch) :
    ∃ D n, (chkverBody c a).arch = { a with digest := D, byteLen := n } := by
  rcases Nat.lt_or_ge c.byteCap a.byteLen.toNat with h | h
  · rw [chkverBody_of_gt h]
    exact ⟨_, _, rfl⟩
  · obtain ⟨D, hD⟩ := putDigest_frame a (Sha.dsha (a.bytes.take (a.byteLen.toNat - 4)))
    by_cases hc : checksumHolds a.bytes
    · rw [chkverBody_of_match h hc, hD]
      exact ⟨_, _, rfl⟩
    · rw [chkverBody_of_mismatch h hc, hD]
      exact ⟨_, _, rfl⟩

/-- R222: CHKAPP writes at most `DIGEST`, `BB` and `BYTE_LEN`. -/
theorem chkappBody_frame (c : Config) (a : Arch) :
    ∃ D m n, (chkappBody c a).arch = { a with digest := D, bb := m, byteLen := n } := by
  rcases Nat.lt_or_ge c.byteCap a.byteLen.toNat with h | h
  · rw [chkappBody_of_gt h]
    exact ⟨_, _, _, rfl⟩
  · rcases Nat.lt_or_ge c.byteCap (a.byteLen.toNat + 4) with ho | ho
    · rw [chkappBody_of_overflow h ho]
      exact ⟨_, _, _, rfl⟩
    · obtain ⟨D, hD⟩ := putDigest_frame a (Sha.dsha a.bytes)
      rw [chkappBody_of_fits ho, hD]
      exact ⟨_, _, _, rfl⟩

/-- R240: the checks of ADDR write at most `RESULT`. -/
theorem addrChecks_frame (c : Config) (a : Arch) : ∃ w, (addrChecks c a).arch = { a with result := w } := by
  unfold addrChecks
  split
  · exact ⟨_, rfl⟩
  · split
    · exact ⟨_, rfl⟩
    · simp only
      split
      · exact ⟨_, rfl⟩
      · exact ⟨_, rfl⟩

/-- R245: a later stage runs on what the earlier one left, or not at all. -/
theorem andThen_cases (r : Ran) (stage : Arch → Ran) :
    r.andThen stage = r ∨ r.raised = none ∧ r.andThen stage = stage r.arch := by
  unfold Ran.andThen
  split
  · exact .inr ⟨‹_›, rfl⟩
  · exact .inl rfl

/-- R245: VALIDATE writes at most `BB`, `BYTE_LEN`, `CONV_INFO`, `DIGEST` and `RESULT`. -/
theorem validateBody_frame (c : Config) (a : Arch) :
    ∃ m n k D w,
      (validateBody c a).arch = { a with bb := m, byteLen := n, convInfo := k, digest := D, result := w } := by
  unfold validateBody
  obtain ⟨m, n, k, h1⟩ := dec58Body_frame c a.clearResult
  rcases andThen_cases (dec58Body c a.clearResult) (chkverBody c) with e | ⟨-, e⟩ <;> rw [e]
  · rcases andThen_cases (dec58Body c a.clearResult) (addrChecks c) with e | ⟨-, e⟩ <;> rw [e]
    · rw [h1]
      exact ⟨_, _, _, _, _, rfl⟩
    · obtain ⟨w, h2⟩ := addrChecks_frame c (dec58Body c a.clearResult).arch
      rw [h2, h1]
      exact ⟨_, _, _, _, _, rfl⟩
  · obtain ⟨D, n', h2⟩ := chkverBody_frame c (dec58Body c a.clearResult).arch
    generalize chkverBody c (dec58Body c a.clearResult).arch = r at h2
    rcases andThen_cases r (addrChecks c) with e | ⟨-, e⟩ <;> rw [e]
    · rw [h2, h1]
      exact ⟨_, _, _, _, _, rfl⟩
    · obtain ⟨w, h3⟩ := addrChecks_frame c r.arch
      rw [h3, h2, h1]
      exact ⟨_, _, _, _, _, rfl⟩

end Sys2Proof.Machine
end

