-- ==== Sys2Proof/Laws/PerInstr.lean ====
section
/-! SUPPORT. The statements made per command, as syntax. `ReservedBits`: the command word of each command has its
reserved bits 0 and decodes to the command itself (30_encoding.md R110 to R113). -/

/-- R110, R112: `RSVD[31:4]` is 0 in the command word, `OP[3:0]` is an assigned number, and the word is read back. -/
def Sys2Proof.Laws.ReservedBits.Statement (i : Sys2Proof.Instr) : Prop :=
  (Sys2Proof.encode i).extractLsb' 4 28 = 0 ∧ Sys2Proof.commandWordWellFormed (Sys2Proof.encode i) ∧
    Sys2Proof.decode (Sys2Proof.encode i) = .ok i

theorem Sys2Proof.Laws.ReservedBits.nop : Sys2Proof.Laws.ReservedBits.Statement .nop := ⟨rfl, by decide, rfl⟩

theorem Sys2Proof.Laws.ReservedBits.dec58 : Sys2Proof.Laws.ReservedBits.Statement .dec58 := ⟨rfl, by decide, rfl⟩

theorem Sys2Proof.Laws.ReservedBits.enc58 : Sys2Proof.Laws.ReservedBits.Statement .enc58 := ⟨rfl, by decide, rfl⟩

theorem Sys2Proof.Laws.ReservedBits.hash2 : Sys2Proof.Laws.ReservedBits.Statement .hash2 := ⟨rfl, by decide, rfl⟩

theorem Sys2Proof.Laws.ReservedBits.chkver : Sys2Proof.Laws.ReservedBits.Statement .chkver := ⟨rfl, by decide, rfl⟩

theorem Sys2Proof.Laws.ReservedBits.chkapp : Sys2Proof.Laws.ReservedBits.Statement .chkapp := ⟨rfl, by decide, rfl⟩

theorem Sys2Proof.Laws.ReservedBits.addr : Sys2Proof.Laws.ReservedBits.Statement .addr := ⟨rfl, by decide, rfl⟩

theorem Sys2Proof.Laws.ReservedBits.validate : Sys2Proof.Laws.ReservedBits.Statement .validate := ⟨rfl, by decide, rfl⟩
end

