-- ==== Sys2Proof/Laws/Radix.lean ====
section
/-! SUPPORT. The conversion primitives (40_converter.md R143 to R147): what the loop of `to_integer` accumulates, and digit
lists and their values. -/

namespace Sys2Proof.Machine

/-- R143, R144: a run that succeeds reads every digit; its value extends the value so far. -/
theorem toIntegerFrom_ok {b lookup} : ∀ {s : List Byte} {i v k v' k'}, toIntegerFrom b lookup s i v k = .ok v' k' →
    ∃ ds, s.map lookup = ds.map some ∧ v' = v * b ^ ds.length + digitsValue b ds := by
  intro s
  induction s with
  | nil => intro i v k v' k' h; simp [toIntegerFrom] at h; exact ⟨[], by simp, by simp [digitsValue, h.1]⟩
  | cons c rest ih =>
    intro i v k v' k' h
    simp only [toIntegerFrom] at h
    split at h
    · cases h
    · rename_i d hd
      obtain ⟨ds, h1, h2⟩ := ih h
      refine ⟨d :: ds, by simp [hd, h1], ?_⟩
      rw [h2]; simp [digitsValue]; ring

/-- R143, R144: a run that fails stops at the first symbol without a digit. -/
theorem toIntegerFrom_err {b lookup} : ∀ {s : List Byte} {i v k j c}, toIntegerFrom b lookup s i v k = .err j c →
    ∃ n, j = i + n ∧ s[n]? = some c ∧ lookup c = none ∧ ∀ m c', m < n → s[m]? = some c' → lookup c' ≠ none := by
  intro s
  induction s with
  | nil => intro i v k j c h; simp [toIntegerFrom] at h
  | cons x rest ih =>
    intro i v k j c h
    simp only [toIntegerFrom] at h
    split at h
    · rename_i hx
      simp at h
      obtain ⟨rfl, rfl⟩ := h
      exact ⟨0, rfl, rfl, hx, by intro m c' hm; omega⟩
    · rename_i d hd
      obtain ⟨n, h1, h2, h3, h4⟩ := ih h
      refine ⟨n+1, by omega, by simpa using h2, h3, ?_⟩
      intro m c' hm hc
      cases m with
      | zero => simp at hc; subst hc; simp [hd]
      | succ m => exact h4 m c' (by omega) (by simpa using hc)

/-- R145: once the value is positive the count no longer changes. -/
theorem toIntegerFrom_pos {b lookup} (hb : 2 ≤ b) : ∀ {s : List Byte} {i v k v' k'}, 0 < v → toIntegerFrom b lookup s i v k = .ok v' k' → k' = k ∧ 0 < v' := by
  intro s
  induction s with
  | nil => intro i v k v' k' hv h; simp [toIntegerFrom] at h; omega
  | cons c rest ih =>
    intro i v k v' k' hv h
    simp only [toIntegerFrom] at h
    split at h
    · cases h
    · rename_i d hd
      have hp : 0 < v * b + d := by positivity
      rw [if_neg (by omega)] at h
      exact ih hp h

/-- R145: from value 0, the count grows by the number of leading zero symbols. -/
theorem toIntegerFrom_zero {b lookup} (hb : 2 ≤ b) : ∀ {s : List Byte} {i k v' k'}, toIntegerFrom b lookup s i 0 k = .ok v' k' →
   k' = k + (s.takeWhile fun c => lookup c == some 0).length := by
  intro s
  induction s with
  | nil => intro i k v' k' h; simp [toIntegerFrom] at h; simp; omega
  | cons c rest ih =>
    intro i k v' k' h
    simp only [toIntegerFrom] at h
    split at h
    · cases h
    · rename_i d hd
      by_cases h0 : d = 0
      · subst h0
        simp at h
        have := ih h
        simp [hd]; omega
      · simp [h0] at h
        have := (toIntegerFrom_pos hb (by omega) h).1
        simp [hd, h0, this]

/-- R144: the value of two digit lists in a row. -/
theorem digitsValue_append (b : Nat) (xs ys : List Nat) : digitsValue b (xs ++ ys) = digitsValue b xs * b ^ ys.length + digitsValue b ys := by
  induction xs with
  | nil => simp [digitsValue]
  | cons x xs ih => simp [digitsValue, ih]; ring

/-- R146: with fuel enough, the digits have the value, are below the radix, and the last is not 0. -/
theorem digitsUp_spec {b : Nat} (hb : 2 ≤ b) : ∀ fuel v, v < 2 ^ fuel → digitsValue b (digitsUp b fuel v).reverse = v ∧ (∀ d ∈ digitsUp b fuel v, d < b) ∧ ((digitsUp b fuel v).getLast? ≠ some 0) := by
  intro fuel
  induction fuel with
  | zero => intro v h; simp [digitsUp]; simp [digitsValue]; omega
  | succ f ih =>
    intro v h
    simp only [digitsUp]
    split
    · rename_i h0; subst h0; simp [digitsValue]
    · rename_i h0
      have hlt : v / b < 2 ^ f := by
        apply Nat.div_lt_of_lt_mul
        calc v < 2 ^ (f+1) := h
          _ = 2 * 2 ^ f := by ring
          _ ≤ b * 2 ^ f := Nat.mul_le_mul_right _ hb
      obtain ⟨h1, h2, h3⟩ := ih _ hlt
      refine ⟨?_, ?_, ?_⟩
      · simp [digitsValue_append, h1, digitsValue]
        rw [Nat.mul_comm]; exact Nat.div_add_mod v b
      · intro d hd
        simp at hd
        rcases hd with rfl | hd
        · exact Nat.mod_lt _ (by omega)
        · exact h2 d hd
      · rw [List.getLast?_cons]
        cases hl : (digitsUp b f (v / b)).getLast? with
        | some x => simp; intro hx; subst hx; exact h3 hl
        | none =>
          simp
          rw [List.getLast?_eq_none_iff] at hl
          rw [hl] at h1
          simp [digitsValue] at h1
          have : v < b := by
            have := Nat.div_add_mod v b
            rw [← h1] at this
            have := Nat.mod_lt v (show b > 0 by omega)
            omega
          rw [Nat.mod_eq_of_lt this]; exact h0

/-- R144: a value of `n` digits is below `b ^ n`. -/
theorem digitsValue_lt {b : Nat} : ∀ {ds : List Nat}, (∀ d ∈ ds, d < b) → digitsValue b ds < b ^ ds.length := by
  intro ds
  induction ds with
  | nil => simp [digitsValue]
  | cons d ds ih =>
    intro h
    have h1 := h d (by simp)
    have h2 := ih (fun x hx => h x (by simp [hx]))
    simp [digitsValue]
    calc d * b ^ ds.length + digitsValue b ds < d * b ^ ds.length + b ^ ds.length := by omega
      _ = (d+1) * b ^ ds.length := by ring
      _ ≤ b * b ^ ds.length := Nat.mul_le_mul_right _ h1
      _ = b ^ (ds.length + 1) := by ring

/-- R144: a leading digit that is not 0 makes the value at least `b ^ n`. -/
theorem digitsValue_ge {b : Nat} {d : Nat} {ds : List Nat} (hd : d ≠ 0) : b ^ ds.length ≤ digitsValue b (d :: ds) := by
  simp [digitsValue]
  calc b ^ ds.length = 1 * b ^ ds.length := by ring
    _ ≤ d * b ^ ds.length := Nat.mul_le_mul_right _ (by omega)
    _ ≤ _ := by omega

/-- R144: digit lists of one length and one value are equal. -/
theorem digitsValue_inj_of_length {b : Nat} (hb : 2 ≤ b): ∀ {xs ys : List Nat}, xs.length = ys.length → (∀ d ∈ xs, d < b) → (∀ d ∈ ys, d < b) →
   digitsValue b xs = digitsValue b ys → xs = ys := by
  intro xs
  induction xs with
  | nil => intro ys h; simp at h; intro _ _ _; exact (List.length_eq_zero_iff.mp h.symm).symm
  | cons x xs ih =>
    intro ys h hx hy he
    cases ys with
    | nil => simp at h
    | cons y ys =>
      simp at h
      have h1 := digitsValue_lt (ds := xs) (b := b) (fun d hd => hx d (by simp [hd]))
      have h2 := digitsValue_lt (ds := ys) (b := b) (fun d hd => hy d (by simp [hd]))
      simp [digitsValue, h] at he
      rw [h] at h1
      have hxy : x = y := by
        have e1 : (x * b ^ ys.length + digitsValue b xs) / b ^ ys.length = x := by
          rw [Nat.add_comm, Nat.add_mul_div_right _ _ (by positivity), Nat.div_eq_of_lt h1]; simp
        have e2 : (y * b ^ ys.length + digitsValue b ys) / b ^ ys.length = y := by
          rw [Nat.add_comm, Nat.add_mul_div_right _ _ (by positivity), Nat.div_eq_of_lt h2]; simp
        rw [← e1, he, e2]
      subst hxy
      rw [ih h (fun d hd => hx d (by simp [hd])) (fun d hd => hy d (by simp [hd])) (by omega)]

/-- R147: a digit list without a leading 0 is no longer than its value needs. -/
theorem length_le_of_digitsValue_lt {b v m : Nat} (hb : 2 ≤ b) {ds : List Nat} (h0 : ds.head? ≠ some 0) (hv : digitsValue b ds = v) (hm : v < b ^ m) : ds.length ≤ m := by
  cases ds with
  | nil => simp
  | cons d ds =>
    have hd : d ≠ 0 := by simpa using h0
    have := digitsValue_ge (b := b) (ds := ds) hd
    have h1 : b ^ ds.length < b ^ m := by omega
    have := (Nat.pow_lt_pow_iff_right (by omega : 1 < b)).mp h1
    simp; omega

end Sys2Proof.Machine
end

