-- ==== Sys2Proof/Machine/HostProgram.lean ====
section
/-! DEFINITION. The host's syntax (30_encoding.md R125 to R127): the two bus statements and the pseudo-instructions,
each as the list of actions it puts before the block. Labels and jumps belong to the host, not to the block (R125). -/

namespace Sys2Proof.Machine.HostProgram

/-- R30: the offset of a register (R81, register summary of 10_state.md); `0x028`, which is reserved, for a reserved one. -/
def offsetOf : Reg → BitVec 12
  | .id => 0x000
  | .hwcfg => 0x004
  | .ctrl => 0x008
  | .cmd => 0x00C
  | .status => 0x010
  | .textLen => 0x014
  | .byteLen => 0x018
  | .errInfo => 0x01C
  | .result => 0x020
  | .convInfo => 0x024
  | .allow i => BitVec.ofNat 12 (0x040 + 4 * i.val)
  | .digest i => BitVec.ofNat 12 (0x060 + 4 * i.val)
  | .tb j => BitVec.ofNat 12 (0x100 + 4 * j)
  | .bb j => BitVec.ofNat 12 (0x200 + 4 * j)
  | .reserved => 0x028

/-- R125: `wr OFF, VAL`. -/
def wr (r : Reg) (w : Word) : Input := .access { off := offsetOf r, width := .w32, op := .write w }

/-- R125: `rd OFF`. -/
def rd (r : Reg) : Input := .access { off := offsetOf r, width := .w32, op := .read }

/-- R126: `cmd MNEM`. -/
def cmd (i : Instr) : List Input := [wr .cmd (encode i)]

/-- R126: `wait`, with `polls` reads of `STATUS` while Busy, then the completion, then the read that ends the loop. The
number of polls is OPEN (R127, U6), so it is an argument. -/
def wait (polls : Nat) : List Input := List.replicate polls (rd .status) ++ [.engineTurn, rd .status]

/-- R126: `run MNEM`. -/
def run (i : Instr) (polls : Nat) : List Input := cmd i ++ wait polls

/-- R126: `expect NAME == V` is a read; the test of what it returned is the host's. -/
def expect (r : Reg) : Input := rd r

/-- R126: the bus words of a byte sequence, from buffer word `j` on, packed by R85, missing bytes filled with 0. -/
def loadWords (word : Nat → Reg) : (j : Nat) → List Byte → List Input
  | j, b0 :: b1 :: b2 :: b3 :: rest => wr (word j) (packWord b0 b1 b2 b3) :: loadWords word (j + 1) rest
  | j, [b0, b1, b2] => [wr (word j) (packWord b0 b1 b2 0)]
  | j, [b0, b1] => [wr (word j) (packWord b0 b1 0 0)]
  | j, [b0] => [wr (word j) (packWord b0 0 0 0)]
  | _, [] => []

/-- R126: `ldtext "S"`. -/
def ldtext (s : List Byte) : List Input := wr .textLen (BitVec.ofNat 32 s.length) :: loadWords .tb 0 s

/-- R126: `ldbytes [b0 b1 ...]`. -/
def ldbytes (bs : List Byte) : List Input := wr .byteLen (BitVec.ofNat 32 bs.length) :: loadWords .bb 0 bs

/-- R126: the word `a_i` of `allow`: bit `j` is set iff `32i + j` is in the set. -/
def allowWord (set : List Byte) (i : Nat) : Word :=
  BitVec.ofBoolListLE ((List.range 32).map fun j => set.contains (BitVec.ofNat 8 (32 * i + j)))

/-- R126: `allow {v1, v2, ...}`. -/
def allow (set : List Byte) : List Input :=
  [wr (.allow 0) (allowWord set 0), wr (.allow 1) (allowWord set 1), wr (.allow 2) (allowWord set 2),
    wr (.allow 3) (allowWord set 3), wr (.allow 4) (allowWord set 4), wr (.allow 5) (allowWord set 5),
    wr (.allow 6) (allowWord set 6), wr (.allow 7) (allowWord set 7)]

/-- R248: the host program of DKS's `is_valid(text, P)`; the last read returns `RESULT`. -/
def isValid (text allowList : List Byte) (polls : Nat) : List Input :=
  allow allowList ++ ldtext text ++ run .validate polls ++ [rd .result]

/-- R127: the direction of a bus transaction. -/
inductive Dir where
  | w
  | r
  deriving DecidableEq, Repr

/-- R127: a bus transaction, with its data word; none stands for `*`, a word that is unspecified as a whole. -/
structure Transaction where
  dir  : Dir
  off  : BitVec 12
  data : Option Word
  deriving DecidableEq, Repr

/-- R127: the transaction of an accepted host access at state `s`; a refused access moves no data. -/
def transaction (s : State) (a : Access) : Transaction :=
  match a.op with
  | .write w => { dir := .w, off := a.off, data := some w }
  | .read =>
    { dir := .r
      off := a.off
      data :=
        if !accepted a || (s.busy && hiddenWhileBusy s.cfg (regAt a.off)) then none
        else some (s.readReg (regAt a.off)) }

/-- R127: the transactions that a list of actions makes from state `s` on. -/
def transactions (s : State) : List Input → List Transaction
  | [] => []
  | x :: rest =>
    let later :=
      match act s x with
      | .next t => transactions t rest
      | .fault _ => []
      | .refused _ => []
    match x with
    | .access a => transaction s a :: later
    | .engineTurn => later
    | .hardReset => later

end Sys2Proof.Machine.HostProgram
end

