-- ==== Sys2Proof/Tests/Slice0.lean ====
section
/-! SUPPORT. The model's own tests. Expected values are those of spec/95_test_vectors.md (the vector is named in each
docstring) or are written out from the encodings of 30_encoding.md; no expected value comes from the model. After them, one
witness for the hypotheses of each statement that has any. -/

namespace Sys2Proof.Tests

open Sys2Proof.Machine

/-! ### Small states -/

/-- A buffer with `bytes` written from index 0 on. -/
def buffer (draw : Nat) (bytes : List Byte) : Memory := (Memory.unspecified draw).writeRange 0 bytes

/-- The reset state with a text operand and a byte operand loaded. -/
def loaded (text bytes : List Byte) : State :=
  { State.reset with
    arch := { State.reset.arch with
      textLen := BitVec.ofNat 16 text.length
      byteLen := BitVec.ofNat 16 bytes.length
      tb := buffer 0 text
      bb := buffer 1 bytes } }

/-- The reset state with the two length registers at these values and nothing in the buffers. -/
def lengths (textLen byteLen : BitVec 16) : State :=
  { State.reset with arch := { State.reset.arch with textLen := textLen, byteLen := byteLen } }

/-- The state with the allow-list's first word replaced. -/
def allowing (w : Word) (s : State) : State :=
  { s with arch := { s.arch with allow := { s.arch.allow with w0 := w } } }

/-- A build with both capacities at their least, 36 bytes. -/
def smallBuild : State := { State.reset with cfg := { textCap := 36, byteCap := 36 } }

/-- The state with these actions pending. -/
def pending (inputs : List Input) (s : State) : State := { s with inputs := inputs }

/-- The state a command leaves. -/
def ran (i : Instr) (s : State) : State :=
  match exec i s with
  | .next t => t
  | .fault _ => s
  | .refused _ => s

/-- What the host reads of a completion: `STATUS` and `ERR_INFO`. -/
def report (s : State) : Word × Word := (s.readReg .status, s.arch.errInfo)

/-- `"1A1zP1eP5QGefi2DMPTfTL5SLmv7DivfNa"` (P1 of 95_test_vectors.md, transactions 2 to 10). -/
def genesisText : List Byte :=
  [0x31, 0x41, 0x31, 0x7A, 0x50, 0x31, 0x65, 0x50, 0x35, 0x51, 0x47, 0x65, 0x66, 0x69, 0x32, 0x44, 0x4D, 0x50] ++
    [0x54, 0x66, 0x54, 0x4C, 0x35, 0x53, 0x4C, 0x6D, 0x76, 0x37, 0x44, 0x69, 0x76, 0x66, 0x4E, 0x61]

/-- The payload of V-ADR-1. -/
def genesisPayload : List Byte :=
  [0x00, 0x62, 0xE9, 0x07, 0xB1, 0x5C, 0xBF, 0x27, 0xD5, 0x42, 0x53] ++
    [0x99, 0xEB, 0xF6, 0xF0, 0xFB, 0x50, 0xEB, 0xB8, 0x8F, 0x18]

/-- The payload of V-ADR-7. -/
def p2shPayload : List Byte :=
  [0x05, 0x00, 0x01, 0x02, 0x03, 0x04, 0x05, 0x06, 0x07, 0x08, 0x09] ++
    [0x0A, 0x0B, 0x0C, 0x0D, 0x0E, 0x0F, 0x10, 0x11, 0x12, 0x13]

/-- A state in which HASH2 runs on `"abc"`. -/
def hashing : State := (loaded [] [0x61, 0x62, 0x63]).start 0x00000003

/-! ### Well-formedness refuses what it should (R8, R9, R110, R114) -/

theorem test_default_build_valid : Config.default.Valid := by decide
theorem test_textCap_multiple_of_4 : ¬ ({ textCap := 38, byteCap := 256 } : Config).Valid := by decide
theorem test_textCap_at_least_36 : ¬ ({ textCap := 32, byteCap := 256 } : Config).Valid := by decide
theorem test_byteCap_multiple_of_4 : ¬ ({ textCap := 36, byteCap := 38 } : Config).Valid := by decide
theorem test_byteCap_at_least_textCap : ¬ ({ textCap := 64, byteCap := 60 } : Config).Valid := by decide
theorem test_byteCap_at_most_256 : ¬ ({ textCap := 256, byteCap := 260 } : Config).Valid := by decide
theorem test_reserved_bit_ill_formed : ¬ commandWordWellFormed 0x00000010 := by decide
theorem test_reserved_op_ill_formed : ¬ commandWordWellFormed 0x00000008 := by decide

/-! ### Decoding words written out from the encoding, `RSVD[31:4] = 0`, `OP[3:0]` (R110, R112) -/

theorem test_decode_nop : decode 0b00000000000000000000000000000000 = .ok .nop := by rfl
theorem test_decode_dec58 : decode 0b00000000000000000000000000000001 = .ok .dec58 := by rfl
theorem test_decode_enc58 : decode 0b00000000000000000000000000000010 = .ok .enc58 := by rfl
theorem test_decode_hash2 : decode 0b00000000000000000000000000000011 = .ok .hash2 := by rfl
theorem test_decode_chkver : decode 0b00000000000000000000000000000100 = .ok .chkver := by rfl
theorem test_decode_chkapp : decode 0b00000000000000000000000000000101 = .ok .chkapp := by rfl
theorem test_decode_addr : decode 0b00000000000000000000000000000110 = .ok .addr := by rfl
theorem test_decode_validate : decode 0b00000000000000000000000000000111 = .ok .validate := by rfl
theorem test_decode_reserved_op : decode 0b00000000000000000000000000001000 = .error .reservedOp := by rfl
theorem test_decode_reserved_bits : decode 0b10000000000000000000000000000111 = .error .reservedBits := by rfl
theorem test_table_words : decodeTableWord 32 7 = some .validate ∧ decodeTableWord 32 8 = none := by decide

/-! ### One command each -/

/-- V-CTL-1. -/
theorem test_nop : report (ran .nop State.reset) = (0x02, 0) := by decide

/-- V-DEC-9. -/
theorem test_dec58_leading_zeros :
    let t := ran .dec58 (loaded [0x31, 0x31, 0x31, 0x32] [])
    report t = (0x02, 0) ∧ t.arch.bytes = [0x00, 0x00, 0x00, 0x01] ∧ t.arch.convInfo = 3 := by decide +kernel

/-- V-DEC-19. -/
theorem test_dec58_first_bad_symbol :
    report (ran .dec58 (loaded [0x61, 0x62, 0x63, 0x20, 0x4F] [])) = (0x12, 0x00200003) := by decide +kernel

/-- V-ENC-7. -/
theorem test_enc58_leading_zero :
    let t := ran .enc58 (loaded [] [0x00, 0xFF])
    report t = (0x02, 0) ∧ t.arch.text = [0x31, 0x35, 0x51] ∧ t.arch.convInfo = 1 := by decide +kernel

/-- V-ENC-11. -/
theorem test_enc58_overflow :
    report (ran .enc58 (loaded [] (List.replicate 188 0xFF))) = (0x62, 0x00000101) := by decide +kernel

/-- V-HSH-2. -/
theorem test_hash2_abc :
    let t := ran .hash2 (loaded [] [0x61, 0x62, 0x63])
    report t = (0x02, 0) ∧ t.arch.digest.w0 = 0xC2428B4F ∧ t.arch.digest.w7 = 0x58636C3E := by decide +kernel

/-- V-HSH-9. -/
theorem test_hash2_len_range : report (ran .hash2 (lengths 0 0x101)) = (0x72, 0x00010101) := by decide

/-- V-HSH-6 and V-HSH-8: the first hash chains two and five blocks; `DIGEST0` and `DIGEST7`. -/
theorem test_dsha_several_blocks :
    digestWord (Sha.dsha (List.replicate 56 0x61)) 0 = 0xFAF02C12 ∧
      digestWord (Sha.dsha (List.replicate 56 0x61)) 7 = 0x9EB386E5 ∧
      digestWord (Sha.dsha ((List.range 256).map (BitVec.ofNat 8))) 0 = 0xC611BD60 ∧
      digestWord (Sha.dsha ((List.range 256).map (BitVec.ofNat 8))) 7 = 0x9CA88F2E := by decide +kernel

/-- V-CHK-3. -/
theorem test_chkver_match :
    let t := ran .chkver (loaded [] [0x5D, 0xF6, 0xE0, 0xE2])
    report t = (0x02, 0) ∧ t.arch.byteLen = 0 ∧ t.arch.digest.w0 = 0xE2E0F65D := by decide +kernel

/-- V-CHK-8. -/
theorem test_chkver_mismatch :
    let t := ran .chkver (loaded [] [0x01, 0x02, 0x03, 0x04, 0x05, 0xA2, 0x6B, 0xAF, 0x5B])
    report t = (0x32, 9) ∧ t.arch.byteLen = 9 ∧ t.arch.digest.w0 = 0x5AAF6BA2 := by decide +kernel

/-- V-APP-2. -/
theorem test_chkapp :
    let t := ran .chkapp (loaded [] [0x01, 0x02, 0x03, 0x04, 0x05])
    report t = (0x02, 0) ∧ t.arch.bytes = [0x01, 0x02, 0x03, 0x04, 0x05, 0xA2, 0x6B, 0xAF, 0x5A] := by decide +kernel

/-- V-APP-4. -/
theorem test_chkapp_overflow : report (ran .chkapp (lengths 0 253)) = (0x62, 0x00000101) := by decide +kernel

/-- V-ADR-8. -/
theorem test_addr_allowed :
    let t := ran .addr (allowing 0x00000020 (loaded [] p2shPayload))
    report t = (0x02, 0) ∧ t.arch.result = 0x00000105 := by decide +kernel

/-- V-ADR-7. -/
theorem test_addr_version : report (ran .addr (loaded [] p2shPayload)) = (0x52, 0x00050000) := by decide +kernel

/-- V-ADR-1. -/
theorem test_validate_genesis :
    let t := ran .validate (loaded genesisText [])
    report t = (0x02, 0) ∧ t.arch.result = 0x00000100 ∧ t.arch.bytes = genesisPayload ∧ t.arch.convInfo = 1 ∧
      t.arch.digest.w0 = 0x937D9BC2 := by decide +kernel

/-- V-ADR-18. -/
theorem test_validate_empty :
    let t := ran .validate (loaded [] [])
    report t = (0x32, 0) ∧ t.arch.result = 0 ∧ t.arch.digest.w0 = 0xE2E0F65D := by decide +kernel

/-! ### The block around the commands -/

/-- V-CTL-3. -/
theorem test_bad_cmd :
    engineTurn (State.reset.start 0x00000010) = .next (State.reset.ended .badCmd 0x00000010) := by rfl

/-- V-CTL-7: a BYTE_LEN write while Busy sets OVR and changes nothing else. -/
theorem test_locked_write :
    (hashing.busAccess (write32 0x018 0x10)).readReg .status = 0x00000005 ∧
      (hashing.busAccess (write32 0x018 0x10)).arch.byteLen = 3 := by decide

/-- V-MEM-2, V-MEM-9: `HWCFG` of the default build and of the least build. -/
theorem test_hwcfg : State.reset.readReg .hwcfg = 0x11000100 ∧ smallBuild.readReg .hwcfg = 0x10240024 := by decide

/-- V-MEM-7. -/
theorem test_bus_error :
    State.reset.busAccess { off := 0x101, width := .w32, op := .write 1 } =
      { State.reset with response := some (.fault .busError) } := by rfl

/-- V-MEM-8. -/
theorem test_little_endian :
    (loaded [0x61, 0x62, 0x63, 0x64, 0x65, 0x66, 0x67, 0x00] []).readReg (.tb 0) = 0x64636261 ∧
      (loaded [0x61, 0x62, 0x63, 0x64, 0x65, 0x66, 0x67, 0x00] []).readReg (.tb 1) = 0x00676665 := by decide

/-- The first step after `withFetchWord` is the command: V-HSH-1 without an operand. -/
theorem test_withFetchWord : step (State.reset.withFetchWord 32 3) = exec .hash2 (State.reset.start 3) := by rfl

/-- 30_encoding.md R126 on P1: `ldtext` of the genesis text, its first and its last word. -/
theorem test_ldtext :
    (HostProgram.ldtext genesisText).take 2 =
        [.access (write32 0x014 0x00000022), .access (write32 0x100 0x7A314131)] ∧
      (HostProgram.ldtext genesisText).getLast? = some (.access (write32 0x120 0x0000614E)) := by decide

/-- Program P2 of 95_test_vectors.md, with one read of `STATUS` while Busy: its transaction table, row by row. -/
theorem test_program_P2 :
    HostProgram.transactions State.reset
        (HostProgram.ldtext [0x6C, 0x31, 0x49, 0x4F, 0x30] ++ HostProgram.run .dec58 1 ++
          [HostProgram.expect .status, HostProgram.expect .errInfo]) =
      [⟨.w, 0x014, some 0x00000005⟩, ⟨.w, 0x100, some 0x4F49316C⟩, ⟨.w, 0x104, some 0x00000030⟩,
        ⟨.w, 0x00C, some 0x00000001⟩, ⟨.r, 0x010, some 0x00000001⟩, ⟨.r, 0x010, some 0x00000012⟩,
        ⟨.r, 0x010, some 0x00000012⟩, ⟨.r, 0x01C, some 0x006C0000⟩] := by decide +kernel

/-- Program P6 of 95_test_vectors.md: the overrun, the unspecified read while Busy, and the clearing of both flags. -/
theorem test_program_P6 :
    HostProgram.transactions State.reset
        (HostProgram.ldbytes [0x61, 0x62, 0x63] ++ HostProgram.cmd .hash2 ++ HostProgram.cmd .nop ++
          [HostProgram.rd (.digest 0)] ++ HostProgram.wait 1 ++
          [HostProgram.expect .status, HostProgram.expect (.digest 0), HostProgram.wr .status 0x00000006,
            HostProgram.expect .status]) =
      [⟨.w, 0x018, some 0x00000003⟩, ⟨.w, 0x200, some 0x00636261⟩, ⟨.w, 0x00C, some 0x00000003⟩,
        ⟨.w, 0x00C, some 0x00000000⟩, ⟨.r, 0x060, none⟩, ⟨.r, 0x010, some 0x00000005⟩,
        ⟨.r, 0x010, some 0x00000006⟩, ⟨.r, 0x010, some 0x00000006⟩, ⟨.r, 0x060, some 0xC2428B4F⟩,
        ⟨.w, 0x010, some 0x00000006⟩, ⟨.r, 0x010, some 0x00000000⟩] := by decide +kernel

/-! ### Witnesses: a state and operands that meet the hypotheses of each statement, at boundary values

A conjunction shows one clause after the other. An idle state is `Coherent` by definition. -/

theorem idle_coherent {s : State} (h : s.engine = .idle) : s.Coherent := by simp [State.Coherent, h]

theorem witness_DecodeAgreesWithEncode :
    Instr.validate.wellFormed = true ∧ decode 0x00000007 = .ok .validate ∧ 0x00000007 = encode .validate := by decide

theorem witness_BadCmdWordsAreTheIllegalOnes :
    (∃ e, decode 0x00000008 = .error e) ∧ (∃ e, decode 0x00000010 = .error e) ∧ (∃ e, decode 0xFFFFFFFF = .error e) ∧
      ¬ ((7 : Word).toNat / 16 ≠ 0 ∨ 8 ≤ (7 : Word).toNat % 16) :=
  ⟨⟨_, rfl⟩, ⟨_, rfl⟩, ⟨_, rfl⟩, by decide⟩

theorem witness_StepRunsTheDecodedCommand :
    hashing.engine = .busy 0x00000003 hashing.source ∧ decode 0x00000003 = .ok .hash2 ∧ hashing.inputs = [] ∧
      (pending [.engineTurn, .hardReset] hashing).inputs = .engineTurn :: [.hardReset] := ⟨rfl, rfl, rfl, rfl⟩

theorem witness_StepTakesTheNextAction :
    (pending [.access (read32 0)] State.reset).inputs = .access (read32 0) :: [] ∧
      (pending [.hardReset] hashing).inputs = .hardReset :: [] ∧ State.reset.engine = .idle ∧
      State.reset.inputs = [] ∧ (pending [.engineTurn] State.reset).inputs = .engineTurn :: [] ∧
      (pending [.engineTurn] State.reset).engine = .idle := ⟨rfl, rfl, rfl, rfl, rfl, rfl⟩

theorem witness_IllegalWordCompletesWithBadCmd :
    State.reset.engine = .idle ∧ 8 ≤ (0x00000008 : Word).toNat % 16 ∧ 8 ≤ (0x0000000F : Word).toNat % 16 ∧
      (0x00000010 : Word).toNat / 16 ≠ 0 ∧ (0xFFFFFFFF : Word).toNat / 16 ≠ 0 := by decide

theorem witness_CmdWriteStartsTheCommand : State.reset.engine = .idle := rfl

theorem witness_CmdWriteWhileBusyIsAnOverrun : hashing.engine = .busy 0x00000003 hashing.source := rfl

/-- Four accesses that reset nothing: a locked write, a refused soft reset (8 bits wide), an `IE` write and a read. -/
def harmless : List Access :=
  [write32 0x018 0x10, { off := 0x008, width := .w8, op := .write 2 }, write32 0x008 1, read32 0x060]

theorem witness_RunningCommandIgnoresHostAccesses :
    (∀ a ∈ harmless, softResets a = false) ∧ (∀ a ∈ ([] : List Access), softResets a = false) ∧
      decode 0x00000003 = .ok .hash2 ∧ ∃ e, decode 0x00000010 = .error e :=
  ⟨by decide, by decide, rfl, ⟨_, rfl⟩⟩

theorem witness_EveryStartedCommandEnds : hashing.busy = true ∧ (pending [.engineTurn] hashing).busy = true := ⟨rfl, rfl⟩

theorem witness_LockedWritesWhileBusySetOverrun :
    hashing.cfg.Valid ∧ hashing.busy = true ∧
      (∀ o ∈ [0x00C, 0x014, 0x018, 0x040, 0x05C, 0x100, 0x1FC, 0x200, 0x2FC],
        lockedOffset hashing.cfg o ∧ (BitVec.ofNat 12 o).toNat % 4 = 0) ∧
      (∀ o ∈ [0x000, 0x004, 0x01C, 0x03C, 0x060, 0x0FC, 0x300, 0xFFC], ignoredOffset hashing.cfg o) ∧
      (∀ o ∈ [0x124, 0x1FC, 0x224, 0xFFC], ignoredOffset smallBuild.cfg o) ∧
      lockedOffset smallBuild.cfg 0x120 ∧ lockedOffset smallBuild.cfg 0x220 ∧ (5 : Word).getLsbD 1 = false := by
  simp only [lockedOffset, ignoredOffset]
  decide

/-- No offset is both locked and ignored, in any build, and neither `CTRL` nor `STATUS` is one of them. -/
theorem locked_ignored_disjoint (c : Config) (h : c.Valid) (o : Nat) :
    ¬ (lockedOffset c o ∧ ignoredOffset c o) ∧ ¬ lockedOffset c 0x008 ∧ ¬ ignoredOffset c 0x008 ∧
      ¬ lockedOffset c 0x010 ∧ ¬ ignoredOffset c 0x010 := by
  simp only [lockedOffset, ignoredOffset]
  obtain ⟨h1, h2, h3, h4, h5⟩ := h
  omega

theorem witness_ReadsHaveNoSideEffect : (read32 0x060).op = .read := rfl

theorem witness_BusyReadsAreFreshDraws :
    hashing.cfg.Valid ∧ hashing.engine = .busy 0x00000003 hashing.source ∧
      (∀ o ∈ [0x014, 0x024, 0x060, 0x07C, 0x100, 0x1FC, 0x200, 0x2FC],
        hiddenOffset hashing.cfg o ∧ (BitVec.ofNat 12 o).toNat % 4 = 0) ∧
      hiddenOffset smallBuild.cfg 0x120 ∧ ¬ hiddenOffset smallBuild.cfg 0x124 ∧ (8 : BitVec 12).toNat < 0x00C ∧
      (0x040 : BitVec 12).toNat = 0x040 ∧ (0x05C : BitVec 12).toNat < 0x060 := by
  simp only [hiddenOffset]
  exact ⟨by decide, rfl, by decide⟩

/-- An offset whose reads are hidden is none of those that read as while Idle. -/
theorem hidden_visible_disjoint (c : Config) (o : Nat) :
    ¬ (hiddenOffset c o ∧ (o < 0x00C ∨ 0x040 ≤ o ∧ o < 0x060)) ∧ ¬ hiddenOffset c 0x010 := by
  simp only [hiddenOffset]
  omega

theorem witness_ReadsReturnTheRegisters :
    State.reset.cfg.Valid ∧ State.reset.engine = .idle ∧
      (∀ o ∈ [0x028, 0x03C, 0x080, 0x0FC, 0x300, 0xFFC], reservedOffset State.reset.cfg o) ∧
      (∀ o ∈ [0x124, 0x1FC, 0x224, 0x2FC], reservedOffset smallBuild.cfg o) ∧ 4 * 63 < State.reset.cfg.textCap ∧
      4 * 8 < smallBuild.cfg.byteCap := by
  simp only [reservedOffset]
  exact ⟨by decide, rfl, by decide, by decide, by decide, by decide⟩

theorem witness_HwcfgReportsTheBuild : State.reset.cfg.Valid ∧ smallBuild.cfg.Valid := by decide

theorem witness_RefusedAccessChangesNoState :
    Width.w8 ≠ .w32 ∧ Width.w16 ≠ .w32 ∧ Width.w64 ≠ .w32 ∧ (0x101 : BitVec 12).toNat % 4 ≠ 0 ∧
      (0xFFF : BitVec 12).toNat % 4 ≠ 0 ∧ (read32 0xFFC).width = .w32 ∧ (read32 0xFFC).off.toNat % 4 = 0 := by decide

theorem witness_BufferWordsPackLittleEndian :
    State.reset.cfg.Valid ∧ State.reset.engine = .idle ∧ 4 * 0 < State.reset.cfg.textCap ∧
      4 * 63 < State.reset.cfg.byteCap ∧ 4 * 8 < smallBuild.cfg.textCap := by decide

theorem witness_LengthRegistersKeepSixteenBits : State.reset.engine = .idle := rfl

theorem witness_AllowRegistersFormOneSet : State.reset.engine = .idle := rfl

theorem witness_CtrlWriteEnablesOrResets :
    (1 : Word).getLsbD 1 = false ∧ (2 : Word).getLsbD 1 = true ∧ (3 : Word).getLsbD 1 = true := by decide

theorem witness_SoftResetRestoresTheRegisters : (2 : Word).getLsbD 1 = true ∧ State.reset.engine = .idle := by decide

theorem witness_SoftResetAbortsTheCommand :
    hashing.engine = .busy (encode .hash2) hashing.source ∧ (2 : Word).getLsbD 1 = true ∧
      (∀ w ∈ [encode .dec58, encode .validate, encode .chkapp, encode .enc58, encode .nop, encode .chkver, encode .addr],
        (State.reset.start w).engine = .busy w State.reset.arch.started) ∧
      ¬ commandWordWellFormed 0x00000010 :=
  ⟨rfl, by decide, fun _ _ => rfl, by decide⟩

theorem witness_HardResetGivesTheResetTable : (pending [.hardReset] hashing).inputs = .hardReset :: [] := rfl

theorem witness_IrqIsEnableAndDone :
    hashing.busy = true ∧ (State.reset.start 0x00000010).busy = true ∧ (2 : Word).getLsbD 1 = true ∧
      (2 : Word).getLsbD 0 = false ∧ State.reset.engine = .idle := ⟨rfl, rfl, by decide, by decide, rfl⟩

theorem witness_NopOnlyCompletes : State.reset.Coherent ∧ hashing.Coherent := ⟨trivial, rfl, rfl, rfl⟩

theorem witness_Dec58ConvertsTextToBytes :
    (loaded genesisText []).cfg.Valid ∧ (loaded genesisText []).Coherent ∧
      (lengths 257 0).cfg.textCap < (lengths 257 0).arch.textLen.toNat ∧
      (lengths 0xFFFF 0).cfg.textCap < (lengths 0xFFFF 0).arch.textLen.toNat ∧
      toInteger 58 lookup58 (loaded [0x31, 0x49] []).arch.text = .err 1 0x49 ∧
      toInteger 58 lookup58 (loaded [0x31, 0x32] []).arch.text = .ok 1 1 ∧
      (lengths 256 0).arch.textLen.toNat ≤ (lengths 256 0).cfg.textCap :=
  ⟨by decide, trivial, by decide, by decide, by decide, by decide, by decide⟩

theorem witness_Enc58ConvertsBytesToText :
    (loaded [] [0]).cfg.Valid ∧ (loaded [] [0]).Coherent ∧
      (lengths 0 257).cfg.byteCap < (lengths 0 257).arch.byteLen.toNat ∧
      (lengths 0 256).arch.byteLen.toNat ≤ (lengths 0 256).cfg.byteCap ∧
      encodeBytes (List.replicate 188 0xFF) ≠ none ∧
      toInteger 256 lookup256 (loaded [] [0x00, 0xFF]).arch.bytes = .ok 255 1 ∧
      (fromInteger 255 1 58 sym58).length ≤ (loaded [] []).cfg.textCap ∧
      (loaded [] []).cfg.textCap < (fromInteger (256 ^ 188 - 1) 0 58 sym58).length := by
  exact ⟨by decide, trivial, by decide, by decide, by decide +kernel, by decide +kernel, by decide +kernel, by decide +kernel⟩

theorem witness_Hash2WritesTheDoubleHash :
    (lengths 0 256).Coherent ∧ (lengths 0 257).cfg.byteCap < (lengths 0 257).arch.byteLen.toNat ∧
      (lengths 0 256).arch.byteLen.toNat ≤ (lengths 0 256).cfg.byteCap := ⟨trivial, by decide, by decide⟩

theorem witness_ChkverStripsAMatchingChecksum :
    (loaded [] [0x5D, 0xF6, 0xE0, 0xE2]).Coherent ∧ checksumHolds (loaded [] [0x5D, 0xF6, 0xE0, 0xE2]).arch.bytes ∧
      ¬ checksumHolds (loaded [] [1, 2, 3]).arch.bytes ∧
      (lengths 0 257).cfg.byteCap < (lengths 0 257).arch.byteLen.toNat ∧
      (lengths 0 256).arch.byteLen.toNat ≤ (lengths 0 256).cfg.byteCap :=
  ⟨trivial, by decide +kernel, by decide, by decide, by decide⟩

theorem witness_ChkappAppendsTheChecksum :
    (lengths 0 252).Coherent ∧ (lengths 0 257).cfg.byteCap < (lengths 0 257).arch.byteLen.toNat ∧
      (lengths 0 253).arch.byteLen.toNat ≤ (lengths 0 253).cfg.byteCap ∧
      (lengths 0 253).cfg.byteCap < (lengths 0 253).arch.byteLen.toNat + 4 ∧
      (lengths 0 252).arch.byteLen.toNat + 4 ≤ (lengths 0 252).cfg.byteCap :=
  ⟨trivial, by decide, by decide, by decide, by decide⟩

theorem witness_AddrChecksLengthThenVersion :
    (loaded [] p2shPayload).cfg.Valid ∧ (loaded [] p2shPayload).Coherent ∧
      (lengths 0 257).cfg.byteCap < (lengths 0 257).arch.byteLen.toNat ∧
      (lengths 0 20).arch.byteLen.toNat ≠ 21 ∧ (loaded [] p2shPayload).arch.byteLen.toNat = 21 ∧
      allowed (loaded [] p2shPayload).arch.allow ((loaded [] p2shPayload).arch.bb.read 0) = false ∧
      allowed (allowing 0x20 (loaded [] p2shPayload)).arch.allow ((loaded [] p2shPayload).arch.bb.read 0) = true :=
  ⟨by decide, trivial, by decide, by decide, by decide, by decide, by decide⟩

theorem witness_ValidateRefinesDecodeAddress :
    (loaded genesisText []).cfg.Valid ∧ (loaded genesisText []).Coherent ∧
      (lengths 257 0).cfg.textCap < (lengths 257 0).arch.textLen.toNat ∧
      (loaded genesisText []).arch.textLen.toNat ≤ (loaded genesisText []).cfg.textCap ∧
      addressVerdict State.reset.arch.allow genesisText = .none ∧
      addressVerdict (allowing 0 State.reset).arch.allow genesisText = .version ∧
      addressVerdict State.reset.arch.allow [] = .checksum ∧ addressVerdict State.reset.arch.allow [0x30] = .badSymbol :=
  ⟨by decide, trivial, by decide, by decide, by decide +kernel, by decide +kernel, by decide +kernel, by decide +kernel⟩

/-- V-ADR-2: the verdict `LENGTH`, of a 20-byte payload. -/
theorem witness_ValidateRefinesDecodeAddress_length :
    addressVerdict State.reset.arch.allow
      ([0x31, 0x31, 0x47, 0x73, 0x43, 0x68, 0x51, 0x52, 0x32, 0x55, 0x33, 0x32, 0x70, 0x76, 0x77, 0x4A] ++
        [0x63, 0x44, 0x4E, 0x50, 0x6F, 0x59, 0x48, 0x68, 0x47, 0x63, 0x6E, 0x7A, 0x35, 0x52, 0x76]) = .length := by
  decide +kernel

/-- The three commands in turn on the genesis text: each succeeds, and each failing clause has a text of its own. -/
theorem witness_ValidateIsTheThreeCommandsInTurn :
    let a (text : List Byte) := ran .dec58 ((loaded text []).start (encode .validate))
    let b (text : List Byte) := ran .chkver ((a text).start (encode .chkver))
    (a [0x30]).arch.err ≠ .none ∧ (a []).arch.err = .none ∧ (b []).arch.err ≠ .none ∧
      (a genesisText).arch.err = .none ∧ (b genesisText).arch.err = .none :=
  ⟨by decide +kernel, by decide +kernel, by decide +kernel, by decide +kernel, by decide +kernel⟩

theorem witness_ValidateAcceptsAValidAddress :
    (loaded genesisText []).cfg.Valid ∧ (loaded genesisText []).Coherent ∧
      (loaded genesisText []).arch.textLen.toNat ≤ (loaded genesisText []).cfg.textCap ∧ genesisPayload.length = 21 ∧
      allowed (loaded genesisText []).arch.allow (genesisPayload.getD 0 0) = true ∧
      decodeText (loaded genesisText []).arch.text = some (genesisPayload ++ (Sha.dsha genesisPayload).take 4) :=
  ⟨by decide, trivial, by decide, by decide, by decide, by decide +kernel⟩

theorem witness_EveryCommandKeepsTheHostsSide : hashing.Coherent ∧ (loaded [] [0x61]).Coherent :=
  ⟨⟨rfl, rfl, rfl⟩, trivial⟩

theorem witness_NonStoringCommandsKeepTheBuffers :
    (Instr.chkver = .nop ∨ Instr.chkver = .hash2 ∨ Instr.chkver = .chkver ∨ Instr.chkver = .addr) ∧ hashing.Coherent ∧
      ∃ t, exec .chkver hashing = .next t := ⟨by decide, ⟨rfl, rfl, rfl⟩, ⟨_, exec_eq _ _⟩⟩

theorem witness_DecodingStoresOnlyItsOutput :
    (Instr.validate = .dec58 ∨ Instr.validate = .validate) ∧ (loaded [0x32] [1, 2]).Coherent ∧
      (∃ t, exec .validate (loaded [0x32] [1, 2]) = .next t) ∧ decodeText (loaded [0x32] [1, 2]).arch.text = some [1] ∧
      decodeText (loaded [0x30] [1, 2]).arch.text = none ∧
      (lengths 257 0).cfg.textCap < (lengths 257 0).arch.textLen.toNat :=
  ⟨by decide, trivial, ⟨_, exec_eq _ _⟩, by decide +kernel, by decide +kernel, by decide⟩

theorem witness_EncodingStoresOnlyItsOutput :
    (loaded [0x31, 0x31, 0x31] [0x3A]).Coherent ∧ (∃ t, exec .enc58 (loaded [0x31, 0x31, 0x31] [0x3A]) = .next t) ∧
      encodeBytes (loaded [0x31, 0x31, 0x31] [0x3A]).arch.bytes = some [0x32, 0x31] ∧
      (ran .enc58 (lengths 0 257)).arch.err ≠ .none :=
  ⟨trivial, ⟨_, exec_eq _ _⟩, by decide +kernel, by decide⟩

theorem witness_AppendStoresFourBytesAtTheEnd :
    (loaded [] [1, 2]).Coherent ∧ (∃ t, exec .chkapp (loaded [] [1, 2]) = .next t) ∧
      1 < (loaded [] [1, 2]).arch.byteLen.toNat ∧ (loaded [] [1, 2]).arch.byteLen.toNat + 4 ≤ 6 ∧
      (ran .chkapp (lengths 0 253)).arch.err ≠ .none :=
  ⟨trivial, ⟨_, exec_eq _ _⟩, by decide, by decide, by decide +kernel⟩

theorem witness_CommandsReportOnlyTheirCodes : ∀ i, ∃ t, exec i hashing = .next t := fun i => ⟨_, exec_eq i _⟩

theorem witness_StaleResultsAreKept :
    hashing.cfg.Valid ∧ hashing.Coherent ∧ (∃ t, exec .nop hashing = .next t) ∧ Instr.nop ≠ .addr ∧
      (ran .validate (loaded [0x30] [])).arch.err = .badSymbol ∧ (ran .enc58 (lengths 0 257)).arch.err = .lenRange ∧
      (ran .chkapp (lengths 0 253)).arch.err = .overflow :=
  ⟨by decide, ⟨rfl, rfl, rfl⟩, ⟨_, rfl⟩, by decide, by decide +kernel, by decide, by decide +kernel⟩

theorem witness_LookupInvertsTheAlphabet :
    (57 < 58 ∧ sym58 57 = 0x7A) ∧ 0x80 ≤ (0x80 : Byte).toNat ∧ 0x80 ≤ (0xFF : Byte).toNat := by decide

theorem witness_ToIntegerValueOrFirstBadSymbol :
    toInteger 58 lookup58 [0x31, 0x32, 0x31] = .ok 58 1 ∧ toInteger 58 lookup58 [0x31, 0x49, 0x30] = .err 1 0x49 := by
  decide

theorem witness_LeadingZeroCountLaw : toInteger 58 lookup58 [0x31, 0x32, 0x31] = .ok 58 1 ∧ 2 ≤ 58 := by decide

theorem witness_FromIntegerWritesTheDigits :
    2 ≤ 58 ∧ (∀ d ∈ [1, 0], d < 58) ∧ ([1, 0] : List Nat).head? ≠ some 0 ∧ digitsValue 58 [1, 0] = 58 := by decide

theorem witness_DecodedBytesNeverExceedTheText :
    toInteger 58 lookup58 [0x31, 0x35, 0x52] = .ok 256 1 ∧ 256 < 256 ^ 2 := by decide

theorem witness_ConversionRoundTrips : ∀ c ∈ genesisText, lookup58 c ≠ none := by decide

/-- The longest text that decodes to 25 bytes has 35 symbols: `"2"` and 34 times `"1"`, the number `58^34 < 256^25`. -/
theorem witness_NoLongTextDecodesToAnAddress :
    ∃ bytes, decodeText (0x32 :: List.replicate 34 0x31) = some bytes ∧ bytes.length = 25 :=
  ⟨fromInteger (58 ^ 34) 0 256 sym256, by decide +kernel, by decide +kernel⟩

theorem witness_PaddingFillsWholeBlocks :
    ([] : List Byte).length < 2 ^ 61 ∧ (List.replicate 56 0x61 : List Byte).length < 2 ^ 61 := by decide

theorem witness_AppendThenVerifyRestores :
    let s := (loaded [] [1, 2, 3, 4, 5]).start (encode .chkapp)
    s.Coherent ∧ s.cfg.Valid ∧ exec .chkapp s = .next (ran .chkapp s) ∧ (ran .chkapp s).arch.err = .none ∧
      4 < s.arch.byteLen.toNat :=
  ⟨⟨rfl, rfl, rfl⟩, by decide, exec_eq _ _, by decide +kernel, by decide⟩

/-- ENC58 running on five bytes, the first three of them 0. -/
def encoding : State := (loaded [] [0, 0, 0, 1, 2]).start (encode .enc58)

/-- DEC58 running on the text `"12"`. -/
def decoding : State := (loaded [0x31, 0x32] []).start (encode .dec58)

theorem witness_EncodeThenDecodeRestores :
    (encoding.Coherent ∧ encoding.cfg.Valid ∧ exec .enc58 encoding = .next (ran .enc58 encoding) ∧
        (ran .enc58 encoding).arch.err = .none) ∧
      decoding.Coherent ∧ decoding.cfg.Valid ∧ exec .dec58 decoding = .next (ran .dec58 decoding) ∧
        (ran .dec58 decoding).arch.err = .none :=
  ⟨⟨⟨rfl, rfl, rfl⟩, by decide, exec_eq _ _, by decide +kernel⟩, ⟨rfl, rfl, rfl⟩, by decide, exec_eq _ _,
    by decide +kernel⟩

theorem witness_WrittenOperandsDecideTheResult :
    operandsWritten Config.default (loaded [0x31] [1, 2]).source .hash2 = true ∧
      operandsWritten Config.default (loaded [0x31] [1, 2]).source .validate = true ∧
      operandsWritten Config.default (lengths 0 1).source .hash2 = false ∧
      operandsWritten Config.default (lengths 0 256).source .hash2 = false ∧
      operandsWritten Config.default (lengths 0 257).source .hash2 = true := by decide

/-- A state with a running command that meets the invariant, and the step it takes. -/
theorem witness_EveryStepKeepsTheInvariant : hashing.Inv ∧ ∃ t, step hashing = .next t := by
  refine ⟨⟨by decide, ⟨by decide, by decide, by decide, .inl rfl⟩, ⟨rfl, rfl, rfl⟩, ⟨by decide, by decide, by decide⟩, ?_⟩,
    ⟨_, exec_eq .hash2 hashing⟩⟩
  intro _ _
  rfl

theorem witness_WindowIsFourKibAtBase : (4095 : Nat) < 4096 ∧ Config.base + 4096 ≤ Config.base + 4096 :=
  ⟨by decide, Nat.le_refl _⟩

end Sys2Proof.Tests
end

section
/-! The register window on the bus (R10, R80): what `busOffset` answers inside and outside the window. -/

namespace Sys2Proof.Machine

/-- R10: `BASE` is aligned because it is the start of a 4096-byte page. -/
theorem base_mod_4096 : Config.base % 4096 = 0 := Nat.mul_mod_right 4096 Config.basePage

theorem busOffset_base_add {o : Nat} (ho : o < 4096) : busOffset (Config.base + o) = some (BitVec.ofNat 12 o) := by
  have hin : Config.base ≤ Config.base + o ∧ Config.base + o < Config.base + 4096 :=
    ⟨Nat.le_add_right _ _, Nat.add_lt_add_left ho _⟩
  rw [busOffset, if_pos hin, Nat.add_sub_cancel_left]

theorem busOffset_eq_none_iff {a : Nat} : busOffset a = none ↔ a < Config.base ∨ Config.base + 4096 ≤ a := by
  unfold busOffset
  split
  case isTrue hin => exact iff_of_false (Option.some_ne_none _) (by omega)
  case isFalse hout => exact iff_of_true rfl (by omega)

/-- Settles O60: the window is the page that starts at `BASE`, and `busOffset` answers exactly on it. -/
theorem windowIsFourKibAtBase : Obligations.WindowIsFourKibAtBase :=
  ⟨base_mod_4096, fun _ ho => busOffset_base_add ho, fun _ ha => busOffset_eq_none_iff.mpr ha⟩

end Sys2Proof.Machine
end

section
/-! The register window, register by register (R80, R81): which offset names which register, what an idle write of a
locked register does, and what each write of `CTRL`, `CMD`, `STATUS` and `HWCFG` does. -/

namespace Sys2Proof.Machine

@[simp] theorem regAt_hwcfg : regAt 0x004 = .hwcfg := rfl
@[simp] theorem regAt_ctrl : regAt 0x008 = .ctrl := rfl
@[simp] theorem regAt_status : regAt 0x010 = .status := rfl
@[simp] theorem regAt_textLen : regAt 0x014 = .textLen := rfl
@[simp] theorem regAt_byteLen : regAt 0x018 = .byteLen := rfl

/-! ### Writes -/

/-- R91, R320: while Idle a write of a locked register makes the register's update and is answered. -/
theorem busAccess_write32_of_locked {s : State} (hs : s.engine = .idle) {off : BitVec 12} (h4 : off.toNat % 4 = 0)
    {w : Word} {f : Arch → Arch} (hf : s.writeReg w (regAt off) = s.lockedWrite f) :
    s.busAccess (write32 off w) = { s with arch := f s.arch, response := some .written } := by
  rw [busAccess_write32 s h4, hf, lockedWrite_of_idle (busy_of_idle hs)]

theorem busAccess_textLen_of_idle {s : State} (hs : s.engine = .idle) (w : Word) :
    s.busAccess (write32 0x014 w) =
      { s with arch := { s.arch with textLen := w.extractLsb' 0 16 }, response := some .written } :=
  busAccess_write32_of_locked (f := fun a => { a with textLen := w.extractLsb' 0 16 }) hs (by decide) rfl

theorem busAccess_byteLen_of_idle {s : State} (hs : s.engine = .idle) (w : Word) :
    s.busAccess (write32 0x018 w) =
      { s with arch := { s.arch with byteLen := w.extractLsb' 0 16 }, response := some .written } :=
  busAccess_write32_of_locked (f := fun a => { a with byteLen := w.extractLsb' 0 16 }) hs (by decide) rfl

theorem allowOffset_aligned : ∀ i : Fin 8, (BitVec.ofNat 12 (0x040 + 4 * i.val)).toNat % 4 = 0 := by decide

theorem busAccess_allow_of_idle {s : State} (hs : s.engine = .idle) (i : Fin 8) (w : Word) :
    s.busAccess (write32 (BitVec.ofNat 12 (0x040 + 4 * i.val)) w) =
      { s with arch := { s.arch with allow := s.arch.allow.set i w }, response := some .written } :=
  busAccess_write32_of_locked (f := fun a => { a with allow := a.allow.set i w }) hs (allowOffset_aligned i)
    (by rw [regAt_allow, State.writeReg])

theorem busAccess_hwcfg (s : State) (w : Word) :
    s.busAccess (write32 0x004 w) = { s with response := some .written } := by
  rw [busAccess_write32 s (by decide), regAt_hwcfg, State.writeReg]

theorem writeStatus_eq (s : State) (w : Word) :
    s.writeStatus w =
      { s with
        arch := { s.arch with
          done := if w.getLsbD 1 then false else s.arch.done
          ovr := if w.getLsbD 2 then false else s.arch.ovr } } := by
  have clear (flag bit : Bool) : (flag && !bit) = if bit then false else flag := by cases bit <;> simp
  simp only [State.writeStatus, clear]

theorem busAccess_status (s : State) (w : Word) :
    s.busAccess (write32 0x010 w) = { s.writeStatus w with response := some .written } := by
  rw [busAccess_write32 s (by decide), regAt_status, State.writeReg]

theorem writeCtrl_of_srst {s : State} {w : Word} (h : w.getLsbD 1 = true) : s.writeCtrl w = s.softReset := by
  rw [State.writeCtrl, if_pos h]

theorem writeCtrl_of_not_srst {s : State} {w : Word} (h : w.getLsbD 1 = false) :
    s.writeCtrl w = { s with arch := { s.arch with ie := w.getLsbD 0 } } := by
  rw [State.writeCtrl, if_neg (by rw [h]; exact Bool.false_ne_true)]

theorem writeCmd_of_idle {s : State} (hs : s.engine = .idle) (w : Word) : s.writeCmd w = s.start w := by
  rw [State.writeCmd, if_neg (by simp [busy_of_idle hs])]

/-! ### Reads -/

theorem answerTo_hwcfg (s : State) : s.answerTo 0x004 = some (.data (hwcfgWord s.cfg)) :=
  answerTo_of_visible s (by decide) (.inr rfl)

theorem answerTo_ctrl (s : State) : s.answerTo 0x008 = some (.data (ctrlWord s.arch.ie)) :=
  answerTo_of_visible s (by decide) (.inr rfl)

theorem answerTo_status (s : State) :
    s.answerTo 0x010 = some (.data (statusWord s.busy s.arch.done s.arch.ovr s.arch.err)) :=
  answerTo_of_visible s (by decide) (.inr rfl)

theorem answerTo_textLen_of_idle {s : State} (hs : s.engine = .idle) :
    s.answerTo 0x014 = some (.data (s.arch.textLen.setWidth 32)) :=
  answerTo_of_visible s (by decide) (.inl (busy_of_idle hs))

theorem answerTo_byteLen_of_idle {s : State} (hs : s.engine = .idle) :
    s.answerTo 0x018 = some (.data (s.arch.byteLen.setWidth 32)) :=
  answerTo_of_visible s (by decide) (.inl (busy_of_idle hs))

end Sys2Proof.Machine
end

section
/-! The layouts of `STATUS`, `CTRL`, `HWCFG` and the length registers, field by field (R32, R33, R35, R38, R39). -/

namespace Sys2Proof.Machine

theorem getLsbD_flagWord (b : Bool) (i : Nat) : (flagWord b).getLsbD i = (decide (i = 0) && b) := by
  cases i <;> simp [flagWord]

theorem ctrlWord_eq_ite (ie : Bool) : ctrlWord ie = if ie then 1 else 0 := by cases ie <;> rfl

/-- R35: each bit of `STATUS` by its position. -/
theorem getLsbD_statusWord (busy done ovr : Bool) (err : Code) {i : Nat} (hi : i < 32) :
    (statusWord busy done ovr err).getLsbD i =
      ((decide (i = 0) && busy) || (decide (i = 1) && done) || (decide (i = 2) && ovr) ||
        (decide (4 ≤ i) && err.bits.getLsbD (i - 4))) := by
  simp only [statusWord, BitVec.getLsbD_or, BitVec.getLsbD_shiftLeft, BitVec.getLsbD_setWidth, getLsbD_flagWord]
  grind

/-- R35: bits `[3:0]` of `STATUS` are the three flags and a 0. -/
theorem statusWord_flags (busy done ovr : Bool) (err : Code) :
    (statusWord busy done ovr err).getLsbD 0 = busy ∧ (statusWord busy done ovr err).getLsbD 1 = done ∧
      (statusWord busy done ovr err).getLsbD 2 = ovr ∧ (statusWord busy done ovr err).getLsbD 3 = false := by
  refine ⟨?_, ?_, ?_, ?_⟩ <;>
  · rw [getLsbD_statusWord _ _ _ _ (by decide)]
    simp

/-- R35: the completion code stands in bits `[7:4]` of `STATUS`. -/
theorem statusWord_err (busy done ovr : Bool) (err : Code) :
    (statusWord busy done ovr err).extractLsb' 4 4 = err.bits := by
  refine BitVec.eq_of_getLsbD_eq fun i hi => ?_
  have hlow : 4 + i ≠ 0 ∧ 4 + i ≠ 1 ∧ 4 + i ≠ 2 := by omega
  rw [BitVec.getLsbD_extractLsb', getLsbD_statusWord _ _ _ _ (by omega)]
  simp [hlow, hi]

/-- R35: bits `[31:8]` of `STATUS` read 0. -/
theorem statusWord_high (busy done ovr : Bool) (err : Code) :
    (statusWord busy done ovr err).extractLsb' 8 24 = 0 := by
  refine BitVec.eq_of_getLsbD_eq fun i hi => ?_
  have herr : err.bits.getLsbD (8 + i - 4) = false := BitVec.getLsbD_of_ge _ _ (by omega)
  have hlow : 8 + i ≠ 0 ∧ 8 + i ≠ 1 ∧ 8 + i ≠ 2 := by omega
  rw [BitVec.getLsbD_extractLsb', getLsbD_statusWord _ _ _ _ (by omega), herr]
  simp [hlow]

/-- R32: what each field of `HWCFG` reads, for every build. -/
theorem hwcfgWord_fields (c : Config) :
    (hwcfgWord c).extractLsb' 0 9 = BitVec.ofNat 9 c.textCap ∧ (hwcfgWord c).extractLsb' 9 7 = 0 ∧
      (hwcfgWord c).extractLsb' 16 9 = BitVec.ofNat 9 c.byteCap ∧ (hwcfgWord c).extractLsb' 25 3 = 0 ∧
      (hwcfgWord c).extractLsb' 28 4 = 1 := by
  unfold hwcfgWord
  generalize BitVec.ofNat 9 c.textCap = t
  generalize BitVec.ofNat 9 c.byteCap = b
  refine ⟨?_, ?_, ?_, ?_, ?_⟩ <;>
  · refine BitVec.eq_of_getLsbD_eq fun i hi => ?_
    simp only [BitVec.getLsbD_extractLsb', BitVec.getLsbD_or, BitVec.getLsbD_shiftLeft, BitVec.getLsbD_setWidth]
    interval_cases i <;> simp

/-- R38, R39: a length register keeps the low 16 bits of the word. -/
theorem extractLsb'_zero_sixteen (w : Word) : w.extractLsb' 0 16 = BitVec.ofNat 16 (w.toNat % 65536) := by
  apply BitVec.eq_of_toNat_eq
  simp

/-- R38, R39: a length register reads with `[31:16] = 0`. -/
theorem setWidth_extractLsb'_zero_sixteen (w : Word) :
    (w.extractLsb' 0 16).setWidth 32 = BitVec.ofNat 32 (w.toNat % 65536) := by
  apply BitVec.eq_of_toNat_eq
  simp

end Sys2Proof.Machine
end

section
/-! The allow-list as one set of version bytes (R43). -/

namespace Sys2Proof.Machine

/-- R43: membership of a byte by register number and bit number. -/
theorem allowed_ofNat (b : Bank) (i : Fin 8) (j : Fin 32) :
    allowed b (BitVec.ofNat 8 (32 * i.val + j.val)) = (b.get i).getLsbD j.val := by
  have hv : (BitVec.ofNat 8 (32 * i.val + j.val)).toNat = 32 * i.val + j.val := by
    rw [BitVec.toNat_ofNat, Nat.mod_eq_of_lt (by omega)]
  have hdiv : (32 * i.val + j.val) / 32 = i.val := by omega
  have hmod : (32 * i.val + j.val) % 32 = j.val := by omega
  have hi : Fin.ofNat 8 i.val = i := Fin.ofNat_val_eq_self i
  rw [allowed, hv, hdiv, hmod, hi]

theorem reset_allow_get (tb bb : Memory) (i : Fin 8) :
    (Arch.reset tb bb).allow.get i = if i = 0 then 1 else 0 := by
  fin_cases i <;> rfl

/-- The register number `v div 32` of a version byte, as an index of the bank. -/
theorem allowIndex_eq_iff (v : Byte) (i : Fin 8) : Fin.ofNat 8 (v.toNat / 32) = i ↔ v.toNat / 32 = i.val := by
  rw [Fin.ext_iff, Fin.val_ofNat, Nat.mod_eq_of_lt (by omega)]

/-- R50: the reset allow-list is `{0x00}`. -/
theorem allowed_reset_iff (tb bb : Memory) (v : Byte) : allowed (Arch.reset tb bb).allow v = true ↔ v = 0x00 := by
  have hzero : v = 0x00 ↔ v.toNat = 0 := BitVec.toNat_inj.symm
  rw [allowed, reset_allow_get, hzero]
  split
  case isTrue h =>
    have hreg : v.toNat / 32 = 0 := (allowIndex_eq_iff v 0).mp h
    have hbit : (1 : Word).getLsbD (v.toNat % 32) = true ↔ v.toNat % 32 = 0 := by simp [BitVec.getLsbD_one, eq_comm]
    rw [hbit]
    omega
  case isFalse h =>
    have hreg : v.toNat / 32 ≠ 0 := fun h0 => h ((allowIndex_eq_iff v 0).mpr h0)
    exact iff_of_false (by simp) (by omega)

/-- R43: setting register `i` decides the membership of its 32 version bytes and of no other. -/
theorem allowed_set (b : Bank) (i : Fin 8) (w : Word) (v : Byte) :
    allowed (b.set i w) v = if v.toNat / 32 = i.val then w.getLsbD (v.toNat % 32) else allowed b v := by
  simp only [allowed, get_set, allowIndex_eq_iff]
  split <;> rfl

end Sys2Proof.Machine
end

section
/-! The interrupt output (R49) and the reset state (R50). -/

namespace Sys2Proof.Machine

theorem reset_eq_resetTable (tb bb : Memory) : Arch.reset tb bb = resetTable tb bb := rfl

theorem softReset_arch_eq_resetTable (s : State) :
    s.softReset.arch = resetTable s.softReset.arch.tb s.softReset.arch.bb :=
  (softReset_arch s).1.trans (reset_eq_resetTable _ _)

theorem unspecified_drawnAs (d : Nat) : (Memory.unspecified d).DrawnAs d := fun _ => rfl

theorem irq_of_not_ie {s : State} (h : s.arch.ie = false) : s.irq = false := by rw [State.irq, h, Bool.false_and]

theorem irq_of_not_done {s : State} (h : s.arch.done = false) : s.irq = false := by rw [State.irq, h, Bool.and_false]

theorem irq_of_done {s : State} (h : s.arch.done = true) : s.irq = s.arch.ie := by rw [State.irq, h, Bool.and_true]

theorem softReset_ie (s : State) : s.softReset.arch.ie = false := by rw [softReset_arch_eq_resetTable]; rfl

/-- R49: a completion, of a command or of an illegal word, leaves `irq` equal to `IE`. -/
theorem engineTurn_irq_of_busy {s : State} (hb : s.busy = true) :
    ∃ t, engineTurn s = .next t ∧ t.irq = s.arch.ie := by
  rcases engineTurn_cases s with ⟨hidle, -⟩ | ⟨w, S, r, -, hturn, -⟩
  · rw [busy_of_idle hidle] at hb
    exact absurd hb Bool.false_ne_true
  · exact ⟨s.finish r, hturn, irq_of_done (finish_done s r)⟩

theorem irq_after_status_write (s : State) {w : Word} (h : w.getLsbD 1 = true) :
    (s.busAccess (write32 0x010 w)).irq = false := by
  refine irq_of_not_done ?_
  rw [busAccess_status, writeStatus_eq]
  exact if_pos h

theorem irq_after_soft_reset (s : State) {w : Word} (h : w.getLsbD 1 = true) :
    (s.busAccess (write32 0x008 w)).irq = false := by
  refine irq_of_not_ie ?_
  rw [busAccess_ctrl, writeCtrl_of_srst h]
  exact softReset_ie s

/-- R49: a `CTRL` write with bit 0 clear lowers `irq`, whether it clears `IE` or resets the block. -/
theorem irq_after_ie_clear (s : State) {w : Word} (h : w.getLsbD 0 = false) :
    (s.busAccess (write32 0x008 w)).irq = false := by
  cases hsrst : w.getLsbD 1 with
  | true => exact irq_after_soft_reset s hsrst
  | false =>
    refine irq_of_not_ie ?_
    rw [busAccess_ctrl, writeCtrl_of_not_srst hsrst]
    exact h

theorem irq_after_command_start {s : State} (hs : s.engine = .idle) (w : Word) :
    (s.busAccess (write32 0x00C w)).irq = false := by
  refine irq_of_not_done ?_
  rw [busAccess_cmd, writeCmd_of_idle hs]
  exact started_done s.arch

end Sys2Proof.Machine
end

section
/-! The statements about the registers, the interrupt and the reset state (10_state.md). -/

namespace Sys2Proof.Machine

/-- Settles O21: `allowed` reads one bit of the bank, so a write of one register decides its own 32 bytes. -/
theorem allowRegistersFormOneSet : Obligations.AllowRegistersFormOneSet := by
  refine ⟨allowed_ofNat, allowed_reset_iff _ _, fun s i w hs => ?_⟩
  rw [busAccess_allow_of_idle hs i w]
  exact ⟨allowed_set s.arch.allow i w, rfl, hs⟩

/-- Settles O28: every falling event clears `DONE` or `IE`, and every completion sets `DONE` and keeps `IE`. -/
theorem irqIsEnableAndDone : Obligations.IrqIsEnableAndDone := fun s =>
  ⟨rfl, engineTurn_irq_of_busy, fun _ h => irq_after_status_write s h, fun _ h => irq_after_ie_clear s h,
    fun w hs => irq_after_command_start hs w, fun _ h => irq_after_soft_reset s h, irq_of_not_ie rfl⟩

/-- Settles O16: the word read is `statusWord`, whose bits are known by position. -/
theorem statusWordLayout : Obligations.StatusWordLayout := by
  refine ⟨fun s => ⟨_, answerTo_status s, ?_⟩, by decide⟩
  obtain ⟨hbusy, hdone, hovr, hzero⟩ := statusWord_flags s.busy s.arch.done s.arch.ovr s.arch.err
  exact ⟨hbusy, hdone, hovr, hzero, statusWord_err _ _ _ _, statusWord_high _ _ _ _⟩

/-- Settles O17: the capacities fit the nine bits of their fields because a valid build has at most 256 bytes. -/
theorem hwcfgReportsTheBuild : Obligations.HwcfgReportsTheBuild := by
  refine ⟨fun s hvalid => ⟨?_, busAccess_hwcfg s⟩, (answerTo_hwcfg _).trans (by decide)⟩
  obtain ⟨-, -, -, htext, hbyte⟩ := hvalid
  obtain ⟨h0, h9, h16, h25, h28⟩ := hwcfgWord_fields s.cfg
  have fits {n : Nat} (hn : n ≤ 256) : (BitVec.ofNat 9 n).toNat = n := by
    rw [BitVec.toNat_ofNat, Nat.mod_eq_of_lt (by omega)]
  exact ⟨_, answerTo_hwcfg s, by rw [h0, fits (htext.trans hbyte)], h9, by rw [h16, fits hbyte], h25, h28⟩

/-- Settles O20: the write stores `w[15:0]`, and the read widens what is stored with zeros. -/
theorem lengthRegistersKeepSixteenBits : Obligations.LengthRegistersKeepSixteenBits := by
  intro s w hs
  refine ⟨⟨_, busAccess_textLen_of_idle hs w, ?_, hs, ?_⟩, ⟨_, busAccess_byteLen_of_idle hs w, ?_, hs, ?_⟩⟩
  · rw [extractLsb'_zero_sixteen]
  · rw [answerTo_textLen_of_idle, setWidth_extractLsb'_zero_sixteen]
    exact hs
  · rw [extractLsb'_zero_sixteen]
  · rw [answerTo_byteLen_of_idle, setWidth_extractLsb'_zero_sixteen]
    exact hs

/-- Settles O22, by `SRST` of the written word; the read-back is the same in both cases. -/
theorem ctrlWriteEnablesOrResets : Obligations.CtrlWriteEnablesOrResets := by
  intro s w
  refine ⟨fun hsrst => ?_, fun hsrst => ?_, ?_⟩
  · rw [busAccess_ctrl, writeCtrl_of_not_srst hsrst]
  · rw [busAccess_ctrl, writeCtrl_of_srst hsrst]
    exact ⟨softReset_arch_eq_resetTable s, softReset_ie s, (softReset_arch s).2⟩
  · rw [answerTo_ctrl, ctrlWord_eq_ite]

/-- Settles O23: a write-one-to-clear flag is kept exactly where the word's bit is 0. -/
theorem statusWriteClearsOnlyNamedFlags : Obligations.StatusWriteClearsOnlyNamedFlags := fun s w => by
  rw [busAccess_status, writeStatus_eq]

/-- Settles O27: `Arch.reset` is the table, and the two buffers stand under draws 0 and 1. -/
theorem resetStateHoldsTheTable : Obligations.ResetStateHoldsTheTable :=
  ⟨reset_eq_resetTable _ _, rfl, irq_of_not_ie rfl, rfl, rfl, 0, 1, Nat.zero_ne_one, unspecified_drawnAs 0,
    unspecified_drawnAs 1⟩

/-- Settles O58, one component of the invariant after the other. -/
theorem resetMeetsTheInvariant : Obligations.ResetMeetsTheInvariant where
  build := by decide
  arch := ⟨(wf_reset _).1, (wf_reset _).2, by decide, .inl rfl⟩
  coherent := trivial
  draws := ⟨by decide, by decide, by decide⟩
  info := fun _ _ => rfl

end Sys2Proof.Machine
end

section
/-! Host accesses by kind (20_memory.md R81 to R92): one that the bus refuses, a read, and an access to a buffer word. -/

namespace Sys2Proof.Machine

/-! ### Refused and accepted accesses -/

theorem accepted_iff {a : Access} : accepted a = true ↔ a.width = .w32 ∧ a.off.toNat % 4 = 0 := by simp [accepted]

/-- R89, R101: a refused access only records the error response. -/
theorem busAccess_of_refused (s : State) {a : Access} (h : ¬ accepted a = true) :
    s.busAccess a = { s with response := some (.fault .busError) } := by
  rw [State.busAccess, if_neg h]

theorem hostRead_response_ne_fault (s : State) (off : BitVec 12) (f : Fault) :
    (s.hostRead off).response ≠ some (.fault f) := by
  obtain ⟨v, d, h, -⟩ := hostRead_eq s off
  simp [h]

/-- R90, R91: an accepted access answers with data or with an acknowledgement, never with a fault. -/
theorem busAccess_response_ne_fault (s : State) {a : Access} (h : accepted a = true) (f : Fault) :
    (s.busAccess a).response ≠ some (.fault f) := by
  rw [State.busAccess, if_pos h]
  cases a.op with
  | read => exact hostRead_response_ne_fault s a.off f
  | write w => simp [State.hostWrite]

/-- R92: a read, refused or not, changes at most the recorded answer and the next draw. -/
theorem busAccess_read_frame (s : State) {a : Access} (h : a.op = .read) :
    ∃ r d, s.busAccess a = { s with response := r, draws := d } := by
  by_cases hacc : accepted a = true
  · obtain ⟨v, d, hread, -⟩ := hostRead_eq s a.off
    refine ⟨some (.data v), d, ?_⟩
    rw [State.busAccess, if_pos hacc, h]
    exact hread
  · exact ⟨_, s.draws, busAccess_of_refused s hacc⟩

/-! ### Offsets -/

theorem offset_aligned {n : Nat} (h : n % 4 = 0) : (BitVec.ofNat 12 n).toNat % 4 = 0 := by
  rw [BitVec.toNat_ofNat]
  omega

theorem regAt_of_tb_window {off : BitVec 12} (hlo : 0x100 ≤ off.toNat) (hhi : off.toNat < 0x200) :
    regAt off = .tb ((off.toNat - 0x100) / 4) := by
  simp (disch := omega) only [regAt, if_neg, if_pos]

theorem regAt_of_bb_window {off : BitVec 12} (hlo : 0x200 ≤ off.toNat) (hhi : off.toNat < 0x300) :
    regAt off = .bb ((off.toNat - 0x200) / 4) := by
  simp (disch := omega) only [regAt, if_neg, if_pos]

/-- R82: the three ranges of the map that name no register and no buffer. -/
theorem regAt_of_gap {off : BitVec 12}
    (h : (0x028 ≤ off.toNat ∧ off.toNat < 0x040) ∨ (0x080 ≤ off.toNat ∧ off.toNat < 0x100) ∨ 0x300 ≤ off.toNat) :
    regAt off = .reserved := by
  rcases h with ⟨hlo, hhi⟩ | ⟨hlo, hhi⟩ | hlo <;> simp (disch := omega) only [regAt, if_neg, if_pos]

/-- R82 to R84: a reserved offset names nothing, or a buffer word beyond its capacity. -/
theorem regAt_of_reservedOffset {c : Config} {off : BitVec 12} (h4 : off.toNat % 4 = 0)
    (h : reservedOffset c off.toNat) :
    regAt off = .reserved ∨ (∃ j, regAt off = .tb j ∧ c.textCap ≤ 4 * j) ∨ ∃ j, regAt off = .bb j ∧ c.byteCap ≤ 4 * j := by
  rcases h with hgap | hgap | ⟨hlo, hhi⟩ | hlo
  · exact .inl (regAt_of_gap (.inl hgap))
  · exact .inl (regAt_of_gap (.inr (.inl hgap)))
  · exact .inr (.inl ⟨_, regAt_of_tb_window (by omega) hhi, by omega⟩)
  · rcases Nat.lt_or_ge off.toNat 0x300 with hhi | hgap
    · exact .inr (.inr ⟨_, regAt_of_bb_window (by omega) hhi, by omega⟩)
    · exact .inl (regAt_of_gap (.inr (.inr hgap)))

/-! ### Reads -/

theorem answerTo_of_idle {s : State} (hs : s.engine = .idle) {off : BitVec 12} (h4 : off.toNat % 4 = 0) :
    s.answerTo off = some (.data (s.readReg (regAt off))) :=
  answerTo_of_visible s h4 (.inl (busy_of_idle hs))

theorem answerTo_allow (s : State) (i : Fin 8) :
    s.answerTo (BitVec.ofNat 12 (0x040 + 4 * i.val)) = some (.data (s.arch.allow.get i)) := by
  rw [answerTo_of_visible s (allowOffset_aligned i) (.inr (by rw [regAt_allow]; rfl)), regAt_allow, State.readReg]

theorem answerTo_digest_of_idle {s : State} (hs : s.engine = .idle) (i : Fin 8) :
    s.answerTo (BitVec.ofNat 12 (0x060 + 4 * i.val)) = some (.data (s.arch.digest.get i)) := by
  rw [answerTo_of_idle hs (offset_aligned (by omega)), regAt_digest, State.readReg]

/-- R90: what names nothing, or lies beyond capacity, is not hidden while Busy and reads 0. -/
theorem answerTo_reserved (s : State) {off : BitVec 12} (h4 : off.toNat % 4 = 0) (h : reservedOffset s.cfg off.toNat) :
    s.answerTo off = some (.data 0) := by
  obtain ⟨hvisible, hzero⟩ : hiddenWhileBusy s.cfg (regAt off) = false ∧ s.readReg (regAt off) = 0 := by
    rcases regAt_of_reservedOffset h4 h with hreg | ⟨j, hreg, hj⟩ | ⟨j, hreg, hj⟩ <;> rw [hreg]
    · exact ⟨rfl, rfl⟩
    · exact ⟨decide_eq_false hj.not_gt, if_neg hj.not_gt⟩
    · exact ⟨decide_eq_false hj.not_gt, if_neg hj.not_gt⟩
  rw [answerTo_of_visible s h4 (.inr hvisible), hzero]

/-! ### Buffer words

A valid build has at most 256 bytes in a buffer, so a word inside capacity is one of the first 64. -/

section
variable {s : State} {j : Nat}

theorem wordIndex_lt (hvalid : s.cfg.Valid) (hj : 4 * j < s.cfg.textCap ∨ 4 * j < s.cfg.byteCap) : j < 64 := by
  obtain ⟨-, -, -, htext, hbyte⟩ := hvalid
  omega

theorem regAt_tb_of_valid (hvalid : s.cfg.Valid) (hj : 4 * j < s.cfg.textCap) :
    regAt (BitVec.ofNat 12 (0x100 + 4 * j)) = .tb j :=
  regAt_tb (wordIndex_lt hvalid (.inl hj))

theorem regAt_bb_of_valid (hvalid : s.cfg.Valid) (hj : 4 * j < s.cfg.byteCap) :
    regAt (BitVec.ofNat 12 (0x200 + 4 * j)) = .bb j :=
  regAt_bb (wordIndex_lt hvalid (.inr hj))

theorem answerTo_tb_of_idle (hvalid : s.cfg.Valid) (hs : s.engine = .idle) (hj : 4 * j < s.cfg.textCap) :
    s.answerTo (BitVec.ofNat 12 (0x100 + 4 * j)) = some (.data (s.arch.tb.readWord j)) := by
  rw [answerTo_of_idle hs (offset_aligned (by omega)), regAt_tb_of_valid hvalid hj, State.readReg, if_pos hj]

theorem answerTo_bb_of_idle (hvalid : s.cfg.Valid) (hs : s.engine = .idle) (hj : 4 * j < s.cfg.byteCap) :
    s.answerTo (BitVec.ofNat 12 (0x200 + 4 * j)) = some (.data (s.arch.bb.readWord j)) := by
  rw [answerTo_of_idle hs (offset_aligned (by omega)), regAt_bb_of_valid hvalid hj, State.readReg, if_pos hj]

theorem busAccess_tb_of_idle (hvalid : s.cfg.Valid) (hs : s.engine = .idle) (hj : 4 * j < s.cfg.textCap) (w : Word) :
    s.busAccess (write32 (BitVec.ofNat 12 (0x100 + 4 * j)) w) =
      { s with arch := { s.arch with tb := s.arch.tb.writeWord j w }, response := some .written } :=
  busAccess_write32_of_locked (f := fun a => { a with tb := a.tb.writeWord j w }) hs (offset_aligned (by omega))
    (by rw [regAt_tb_of_valid hvalid hj, State.writeReg, if_pos hj])

theorem busAccess_bb_of_idle (hvalid : s.cfg.Valid) (hs : s.engine = .idle) (hj : 4 * j < s.cfg.byteCap) (w : Word) :
    s.busAccess (write32 (BitVec.ofNat 12 (0x200 + 4 * j)) w) =
      { s with arch := { s.arch with bb := s.arch.bb.writeWord j w }, response := some .written } :=
  busAccess_write32_of_locked (f := fun a => { a with bb := a.bb.writeWord j w }) hs (offset_aligned (by omega))
    (by rw [regAt_bb_of_valid hvalid hj, State.writeReg, if_pos hj])

end

/-- R85: a word write stores the four bytes of the word, least significant first, and nothing else. -/
theorem stored_writeWord (m : Memory) (j : Nat) (w : Word) :
    m.Stored (m.writeWord j w) (4 * j)
      [w.extractLsb' 0 8, w.extractLsb' 8 8, w.extractLsb' 16 8, w.extractLsb' 24 8] :=
  stored_writeRange m (4 * j) _

end Sys2Proof.Machine
end

section
/-! The scheduler (R94, R300): a step takes the front of the list of pending actions. -/

namespace Sys2Proof.Machine

theorem step_of_nil {s : State} (h : s.inputs = []) : step s = engineTurn s := by rw [step, h]

theorem step_of_cons {s : State} {x : Input} {rest : List Input} (h : s.inputs = x :: rest) :
    step s = act { s with inputs := rest } x := by
  rw [step, h]

end Sys2Proof.Machine
end

section
/-! The statements about the register window and the host's accesses (20_memory.md). -/

namespace Sys2Proof.Machine

/-- Settles O13: a read's frame names the answer and the draw counter only, and `irq` is computed from the registers. -/
theorem readsHaveNoSideEffect : Obligations.ReadsHaveNoSideEffect := by
  intro s a hread
  obtain ⟨r, d, h⟩ := busAccess_read_frame s hread
  rw [h]
  exact ⟨rfl, rfl, rfl, rfl, rfl⟩

/-- Settles O15, register by register; a buffer word is read byte by byte from the word that the read returns. -/
theorem readsReturnTheRegisters : Obligations.ReadsReturnTheRegisters := by
  intro s hvalid
  refine ⟨answerTo_of_visible s (by decide) (.inr rfl), answerTo_of_visible s (by decide) (.inr rfl), ?_,
    answerTo_allow s, fun _ h4 h => answerTo_reserved s h4 h, fun hs => ?_⟩
  · rw [answerTo_ctrl, ctrlWord_eq_ite]
  · exact ⟨answerTo_textLen_of_idle hs, answerTo_byteLen_of_idle hs, answerTo_of_idle hs (by decide),
      answerTo_of_idle hs (by decide), answerTo_of_idle hs (by decide), answerTo_digest_of_idle hs,
      fun j hj => ⟨_, answerTo_tb_of_idle hvalid hs hj, readWord_byte _ j⟩,
      fun j hj => ⟨_, answerTo_bb_of_idle hvalid hs hj, readWord_byte _ j⟩⟩

/-- Settles O19: the write is `writeWord` on the buffer, and the state it leaves is Idle with the same build, so that the
word is read back from it. -/
theorem bufferWordsPackLittleEndian : Obligations.BufferWordsPackLittleEndian := by
  intro s j w hvalid hs
  refine ⟨fun hj => ⟨_, stored_writeWord _ j w, busAccess_tb_of_idle hvalid hs hj w, ?_⟩,
    fun hj => ⟨_, stored_writeWord _ j w, busAccess_bb_of_idle hvalid hs hj w, ?_⟩⟩
  · rw [busAccess_tb_of_idle hvalid hs hj, answerTo_tb_of_idle, readWord_writeWord] <;> assumption
  · rw [busAccess_bb_of_idle hvalid hs hj, answerTo_bb_of_idle, readWord_writeWord] <;> assumption

/-- Settles O5, by the action that comes next. -/
theorem stepTakesTheNextAction : Obligations.StepTakesTheNextAction := by
  refine fun s => ⟨fun a rest h => ?_, fun rest h => ?_, fun hs h => ?_, fun rest hs h => ?_⟩
  · rw [step_of_cons h, act]
  · rw [step_of_cons h, act]
  · rw [step_of_nil h, engineTurn_of_idle hs]
  · rw [step_of_cons h, act]
    exact engineTurn_of_idle hs

/-- Settles O18: the two hypotheses are the two sides of `accepted`. -/
theorem refusedAccessChangesNoState : Obligations.RefusedAccessChangesNoState := by
  refine fun s a => ⟨fun h => busAccess_of_refused s ?_, fun hw h4 => ?_⟩
  · rw [accepted_iff, not_and_or]
    exact h
  · exact busAccess_response_ne_fault s (accepted_iff.mpr ⟨hw, h4⟩) _

end Sys2Proof.Machine
end

section
/-! The decoder and the encoder over all words (30_encoding.md R110 to R114): a word with its reserved bits clear is its
low four bits, so that what `decode` answers is a matter of sixteen words. -/

namespace Sys2Proof

theorem decode_of_reservedBits {w : Word} (h : w.extractLsb' 4 28 ≠ 0) : decode w = .error .reservedBits := by
  rw [decode, if_pos h]

/-- R110: a word whose reserved bits are clear is its `OP` field under 28 zero bits. -/
theorem eq_append_op_of_reservedBits_clear {w : Word} (h : w.extractLsb' 4 28 = 0) :
    w = (0 : BitVec 28) ++ w.extractLsb' 0 4 := by
  have hjoin : w.extractLsb' 4 28 ++ w.extractLsb' 0 4 = w.extractLsb' 0 32 :=
    BitVec.extractLsb'_append_extractLsb'_eq_extractLsb' (len₂ := 28) (Nat.zero_add 4).symm
  rw [← h, hjoin, BitVec.extractLsb'_eq_self]

theorem decode_append_op_eq_ok_iff (n : BitVec 4) (i : Instr) :
    decode ((0 : BitVec 28) ++ n) = .ok i ↔ n = opcode i := by
  revert n
  cases i <;> decide

theorem decode_append_op_isOk : ∀ n : BitVec 4, (decode ((0 : BitVec 28) ++ n)).isOk = decide (n.toNat < 8) := by
  decide

theorem decode_encode (i : Instr) : decode (encode i) = .ok i :=
  (decode_append_op_eq_ok_iff (opcode i) i).mpr rfl

/-- R113: no word but its encoding decodes to a command. -/
theorem eq_encode_of_decode_eq_ok {w : Word} {i : Instr} (h : decode w = .ok i) : w = encode i := by
  by_cases hrsvd : w.extractLsb' 4 28 = 0
  · rw [eq_append_op_of_reservedBits_clear hrsvd] at h ⊢
    rw [encode, (decode_append_op_eq_ok_iff _ i).mp h]
  · rw [decode_of_reservedBits hrsvd] at h
    nomatch h

theorem decode_eq_ok_iff {w : Word} {i : Instr} : decode w = .ok i ↔ w = encode i :=
  ⟨eq_encode_of_decode_eq_ok, fun h => h ▸ decode_encode i⟩

theorem reservedBits_eq_zero_iff (w : Word) : w.extractLsb' 4 28 = 0 ↔ w.toNat / 16 = 0 := by
  have hw := w.isLt
  rw [← BitVec.toNat_inj, BitVec.extractLsb'_toNat, Nat.shiftRight_eq_div_pow]
  simp only [BitVec.ofNat_eq_ofNat, BitVec.toNat_ofNat]
  omega

theorem op_toNat (w : Word) : (w.extractLsb' 0 4).toNat = w.toNat % 16 := by
  rw [BitVec.extractLsb'_toNat, Nat.shiftRight_zero]

/-- R110, R114: the decoder accepts exactly the well-formed command words. -/
theorem decode_isOk (w : Word) : (decode w).isOk = decide (commandWordWellFormed w) := by
  by_cases hrsvd : w.extractLsb' 4 28 = 0
  · have hhigh := (reservedBits_eq_zero_iff w).mp hrsvd
    have hlow : (decode w).isOk = decide (w.toNat % 16 < 8) := by
      rw [← op_toNat, ← decode_append_op_isOk, ← eq_append_op_of_reservedBits_clear hrsvd]
    rw [hlow]
    exact decide_eq_decide.mpr (and_iff_right hhigh).symm
  · have hhigh := mt (reservedBits_eq_zero_iff w).mpr hrsvd
    rw [decode_of_reservedBits hrsvd]
    exact (decide_eq_false fun h => hhigh h.1).symm

theorem exists_decode_eq_error_iff (w : Word) : (∃ e, decode w = .error e) ↔ ¬ commandWordWellFormed w := by
  rw [← decide_eq_false_iff_not, ← decode_isOk]
  cases decode w with
  | ok i => exact iff_of_false (fun ⟨_, h⟩ => nomatch h) Bool.noConfusion
  | error e => exact iff_of_true ⟨e, rfl⟩ rfl

/-- R114: the two ways a word is ill-formed. -/
theorem not_commandWordWellFormed_iff (w : Word) :
    ¬ commandWordWellFormed w ↔ w.toNat / 16 ≠ 0 ∨ 8 ≤ w.toNat % 16 := by
  rw [not_and_or, Nat.not_lt]

end Sys2Proof
end

section
/-! What a running command completes with (R123), and that host accesses short of a soft reset do not change it (R18,
R320). -/

namespace Sys2Proof.Machine

/-- R114, R123: what the engine leaves for the word `w`, legal or not, run on the snapshot `S`. -/
def wordRun (c : Config) (w : Word) (S : Arch) : Ran :=
  match decode w with
  | .ok i => commandBody c S i
  | .error _ => Ran.fail S { code := .badCmd, info := w }

/-- The engine's turn depends on nothing but the build, the word and the snapshot, and `finish` on the state. -/
theorem engineTurn_of_busy {s : State} {w : Word} {S : Arch} (h : s.engine = .busy w S) :
    engineTurn s = .next (s.finish (wordRun s.cfg w S)) := by
  unfold wordRun
  cases hd : decode w with
  | ok i => rw [engineTurn_of_ok h hd, exec_eq, source_of_busy h]
  | error e => rw [engineTurn_of_error h hd, State.finishBadCmd, source_of_busy h]

/-- Two states of one build complete the same run alike, but for the two flags that the host owns. -/
theorem finish_arch_eq (s t : State) (r : Ran) :
    (t.finish r).arch = { (s.finish r).arch with ie := t.arch.ie, ovr := t.arch.ovr } := rfl

/-- R18, R320: a list of accesses short of a soft reset leaves a running engine and the build as they are. -/
theorem foldl_busAccess_keeps_run {accesses : List Access} {s : State} (hb : s.busy = true)
    (h : ∀ a ∈ accesses, softResets a = false) :
    (accesses.foldl State.busAccess s).engine = s.engine ∧ (accesses.foldl State.busAccess s).cfg = s.cfg := by
  induction accesses generalizing s with
  | nil => exact ⟨rfl, rfl⟩
  | cons a rest ih =>
    obtain ⟨ha, hrest⟩ := List.forall_mem_cons.mp h
    have hengine := busAccess_engine_of_busy hb ha
    have hbusy : (s.busAccess a).busy = true := by rw [State.busy, hengine]; exact hb
    obtain ⟨hkeep, hcfg⟩ := ih hbusy hrest
    exact ⟨hkeep.trans hengine, hcfg.trans (busAccess_keeps s a).1⟩

theorem writeCmd_of_busy {s : State} (hb : s.busy = true) (w : Word) :
    s.writeCmd w = { s with arch := { s.arch with ovr := true } } := by
  rw [State.writeCmd, if_pos hb]

/-- R120: the state after an accepted write of `CMD`. -/
theorem busAccess_cmd_of_idle {s : State} (hs : s.engine = .idle) (w : Word) :
    s.busAccess (write32 0x00C w) = { s.start w with response := some .written } := by
  rw [busAccess_cmd, writeCmd_of_idle hs]

end Sys2Proof.Machine
end

section
/-! The frame of a command at a coherent state (R111): what its body leaves alone of the registers of the snapshot, which
are the current ones. -/

namespace Sys2Proof.Machine

/-- R240: ADDR writes at most `RESULT`. -/
theorem addrBody_frame (c : Config) (a : Arch) : ∃ w, (addrBody c a).arch = { a with result := w } :=
  addrChecks_frame c a.clearResult

theorem source_allow_of_coherent {s : State} (h : s.Coherent) : s.source.allow = s.arch.allow := by
  rw [source_of_coherent h]

/-- R43, R111: no command writes the allow-list. -/
theorem commandBody_allow (c : Config) (a : Arch) (i : Instr) : (commandBody c a i).arch.allow = a.allow := by
  cases i with
  | nop => rfl
  | dec58 =>
    obtain ⟨_, _, _, h⟩ := dec58Body_frame c a
    rw [commandBody, h]
  | enc58 =>
    obtain ⟨_, _, _, h⟩ := enc58Body_frame c a
    rw [commandBody, h]
  | hash2 =>
    obtain ⟨_, h⟩ := hash2Body_frame c a
    rw [commandBody, h]
  | chkver =>
    obtain ⟨_, _, h⟩ := chkverBody_frame c a
    rw [commandBody, h]
  | chkapp =>
    obtain ⟨_, _, _, h⟩ := chkappBody_frame c a
    rw [commandBody, h]
  | addr =>
    obtain ⟨_, h⟩ := addrBody_frame c a
    rw [commandBody, h]
  | validate =>
    obtain ⟨_, _, _, _, _, h⟩ := validateBody_frame c a
    rw [commandBody, h]

/-- R111: NOP, HASH2, CHKVER and ADDR write at most `BYTE_LEN`, `DIGEST` and `RESULT`, each only where the command owns
the register. -/
theorem commandBody_frame_of_nonStoring (c : Config) (a : Arch) {i : Instr}
    (hi : i = .nop ∨ i = .hash2 ∨ i = .chkver ∨ i = .addr) :
    ∃ n D w, (commandBody c a i).arch = { a with byteLen := n, digest := D, result := w } ∧
      (i ≠ .chkver → n = a.byteLen) ∧ (i = .nop ∨ i = .addr → D = a.digest) ∧ (i ≠ .addr → w = a.result) := by
  rcases hi with rfl | rfl | rfl | rfl
  · exact ⟨_, _, _, rfl, fun _ => rfl, fun _ => rfl, fun _ => rfl⟩
  · obtain ⟨D, h⟩ := hash2Body_frame c a
    exact ⟨_, D, _, h, fun _ => rfl, by simp, fun _ => rfl⟩
  · obtain ⟨D, n, h⟩ := chkverBody_frame c a
    exact ⟨n, D, _, h, by simp, by simp, fun _ => rfl⟩
  · obtain ⟨w, h⟩ := addrBody_frame c a
    exact ⟨_, _, w, h, fun _ => rfl, fun _ => rfl, by simp⟩

end Sys2Proof.Machine
end

section
/-! The statements about the encoding, the command lifecycle and the commands' frames (30_encoding.md). -/

namespace Sys2Proof.Machine

/-- Settles O2: a word with a reserved bit decodes to no command, and any other is the encoding of what it decodes to. -/
theorem decodeAgreesWithEncode : Obligations.DecodeAgreesWithEncode := fun _ _ _ => decode_eq_ok_iff

/-- Settles O3: the words that do not decode are the ill-formed ones. -/
theorem badCmdWordsAreTheIllegalOnes : Obligations.BadCmdWordsAreTheIllegalOnes := fun w =>
  (exists_decode_eq_error_iff w).trans (not_commandWordWellFormed_iff w)

/-- Settles O6: the accepted word is refused by the decoder, and the completion that it gets runs no pseudocode on the
snapshot, which is the state before but for the flags that the completion overwrites. -/
theorem illegalWordCompletesWithBadCmd : Obligations.IllegalWordCompletesWithBadCmd := by
  intro s w hs hw
  obtain ⟨e, he⟩ := (badCmdWordsAreTheIllegalOnes w).mpr hw
  rw [busAccess_cmd_of_idle hs]
  refine ⟨⟨e, he⟩, rfl, ?_⟩
  rw [engineTurn_of_error (S := s.arch.started) rfl he]
  rfl

/-- Settles O9: the accesses keep the engine and the build, on which alone the run depends; the completion takes `IE` and
`OVR` from the state that it meets. -/
theorem runningCommandIgnoresHostAccesses : Obligations.RunningCommandIgnoresHostAccesses := by
  intro s w accesses hsoft
  obtain ⟨hengine, hcfg⟩ := foldl_busAccess_keeps_run (start_busy s w) hsoft
  have hnow := engineTurn_of_busy (start_engine s w)
  have hlater := engineTurn_of_busy (hengine.trans (start_engine s w))
  rw [hcfg] at hlater
  exact ⟨hengine, _, _, hnow, hlater, finish_arch_eq _ _ _, finish_busy _ _⟩

/-- Settles O39: a completion keeps the host's side by itself; the allow-list is that of the snapshot, which no body
writes. -/
theorem everyCommandKeepsTheHostsSide : Obligations.EveryCommandKeepsTheHostsSide := by
  intro i s hcoh
  refine ⟨_, exec_eq i s, rfl, rfl, rfl, rfl, rfl, rfl, ?_, rfl, rfl⟩
  rw [finish_allow, commandBody_allow, source_allow_of_coherent hcoh]

/-- Settles O40: the frame of the command's body on the snapshot, whose buffers and registers are the current ones. -/
theorem nonStoringCommandsKeepTheBuffers : Obligations.NonStoringCommandsKeepTheBuffers := by
  intro i s t hi hcoh hexec
  obtain ⟨n, D, w, hframe, hn, hD, hw⟩ := commandBody_frame_of_nonStoring s.cfg s.source hi
  rw [exec_next hexec, State.finish, hframe]
  rw [source_of_coherent hcoh] at hn hD hw ⊢
  exact ⟨fun _ => rfl, fun _ => rfl, rfl, rfl, hn, hD, hw⟩

/-- Settles O1: the eight words are the encodings, and the reserved row is not well formed. -/
theorem decodeReadsTheOpcodeMap : Obligations.DecodeReadsTheOpcodeMap :=
  ⟨decode_encode .nop, decode_encode .dec58, decode_encode .enc58, decode_encode .hash2, decode_encode .chkver,
    decode_encode .chkapp, decode_encode .addr, decode_encode .validate, fun n =>
      (exists_decode_eq_error_iff _).mpr (by revert n; decide)⟩

/-- Settles O4, by whether an action is pending. -/
theorem stepRunsTheDecodedCommand : Obligations.StepRunsTheDecodedCommand := by
  refine fun s w S i hs hd => ⟨fun h => ?_, fun rest h => ?_⟩
  · rw [step_of_nil h, engineTurn_of_ok hs hd]
  · rw [step_of_cons h, act]
    exact engineTurn_of_ok hs hd

/-- Settles O7: the write is `start`, which clears `DONE` and so lowers `irq`. -/
theorem cmdWriteStartsTheCommand : Obligations.CmdWriteStartsTheCommand := by
  intro s w hs
  refine ⟨busAccess_cmd_of_idle hs w, ?_, irq_after_command_start hs w⟩
  rw [busAccess_cmd_of_idle hs]
  rfl

/-- Settles O8: `writeCmd` of a busy engine only sets `OVR`. -/
theorem cmdWriteWhileBusyIsAnOverrun : Obligations.CmdWriteWhileBusyIsAnOverrun := fun s v S w hs => by
  rw [busAccess_cmd, writeCmd_of_busy (busy_of_busy hs)]

end Sys2Proof.Machine
end

section
/-! The conversion primitives over every radix (40_converter.md R141 to R149): digit lists in canonical form, and
`to_integer` and `from_integer` as inverses of each other wherever the symbol map inverts the lookup. -/

namespace Sys2Proof.Machine

/-! ### The digits of a number -/

theorem digitsValue_digits {b : Nat} (hb : 2 ≤ b) (v : Nat) : digitsValue b (digits b v) = v :=
  (digitsUp_spec hb _ v Nat.lt_log2_self).1

theorem digits_lt {b : Nat} (hb : 2 ≤ b) (v : Nat) : ∀ d ∈ digits b v, d < b := fun d hd =>
  (digitsUp_spec hb _ v Nat.lt_log2_self).2.1 d (List.mem_reverse.mp hd)

theorem digits_head?_ne_zero {b : Nat} (hb : 2 ≤ b) (v : Nat) : (digits b v).head? ≠ some 0 := by
  rw [digits, List.head?_reverse]
  exact (digitsUp_spec hb _ v Nat.lt_log2_self).2.2

theorem takeWhile_zero_eq_nil {ds : List Nat} (h : ds.head? ≠ some 0) : ds.takeWhile (· == 0) = [] := by
  cases ds with
  | nil => rfl
  | cons d rest => exact List.takeWhile_cons_of_neg (by simpa using h)

theorem digitsValue_replicate_zero_append (b k : Nat) (ds : List Nat) :
    digitsValue b (List.replicate k 0 ++ ds) = digitsValue b ds := by
  induction k with
  | zero => rfl
  | succ k ih => simp [List.replicate_succ, digitsValue, ih]

theorem lt_pow_length_digits {b : Nat} (hb : 2 ≤ b) (v : Nat) : v < b ^ (digits b v).length := by
  simpa [digitsValue_digits hb] using digitsValue_lt (digits_lt hb v)

/-- R146, R147: the number of digits is the least exponent of the radix above the value. -/
theorem length_digits_le {b v m : Nat} (hb : 2 ≤ b) (hm : v < b ^ m) : (digits b v).length ≤ m :=
  length_le_of_digitsValue_lt hb (digits_head?_ne_zero hb v) (digitsValue_digits hb v) hm

/-- R146: a digit list without a leading 0 is the digit list of its value. -/
theorem digits_digitsValue {b : Nat} (hb : 2 ≤ b) {ds : List Nat} (hlt : ∀ d ∈ ds, d < b) (hhead : ds.head? ≠ some 0) :
    digits b (digitsValue b ds) = ds := by
  have hlength : (digits b (digitsValue b ds)).length = ds.length := Nat.le_antisymm
    (length_digits_le hb (digitsValue_lt hlt))
    (length_le_of_digitsValue_lt hb hhead rfl (lt_pow_length_digits hb _))
  exact digitsValue_inj_of_length hb hlength (digits_lt hb _) hlt (digitsValue_digits hb _)

/-- R145, R146: any digit list is its leading zeros and the digits of its value. -/
theorem replicate_append_digits {b : Nat} (hb : 2 ≤ b) {ds : List Nat} (hlt : ∀ d ∈ ds, d < b) :
    List.replicate (ds.takeWhile (· == 0)).length 0 ++ digits b (digitsValue b ds) = ds := by
  induction ds with
  | nil => exact digits_digitsValue hb hlt (by simp)
  | cons d rest ih =>
    by_cases hd : d = 0
    · subst hd
      simpa [List.replicate_succ, digitsValue] using ih fun d hd => hlt d (List.mem_cons_of_mem _ hd)
    · have hhead : (d :: rest).head? ≠ some 0 := by simpa using hd
      simpa [hd] using digits_digitsValue hb hlt hhead

/-- R146: the loop's output, reversed, is the zero symbols and the digits most significant first. -/
theorem fromInteger_eq (v k b : Nat) (sym : Nat → Byte) :
    fromInteger v k b sym = List.replicate k (sym 0) ++ (digits b v).map sym := by
  simp [fromInteger, digits]

@[simp] theorem fromInteger_length (v k b : Nat) (sym : Nat → Byte) :
    (fromInteger v k b sym).length = k + (digits b v).length := by
  simp [fromInteger_eq]

theorem fromInteger_eq_map (v k b : Nat) (sym : Nat → Byte) :
    fromInteger v k b sym = (List.replicate k 0 ++ digits b v).map sym := by
  simp [fromInteger_eq]

/-! ### `to_integer` in one radix -/

/-- R144: where the loop fails, it has not looked at what follows the failing symbol. -/
theorem toIntegerFrom_take_append {b : Nat} {lookup : Byte → Option Nat} {s : List Byte} {i v k n j : Nat} {c : Byte}
    (h : toIntegerFrom b lookup s i v k = .err j c) (hj : j = i + n) (s' : List Byte) :
    toIntegerFrom b lookup (s.take (n + 1) ++ s') i v k = .err j c := by
  induction s generalizing i v k n with
  | nil => simp [toIntegerFrom] at h
  | cons x rest ih =>
    rw [List.take_succ_cons, List.cons_append]
    cases hx : lookup x with
    | none => simpa [toIntegerFrom, hx] using h
    | some d =>
      simp only [toIntegerFrom, hx] at h ⊢
      obtain ⟨m, hm, -⟩ := toIntegerFrom_err h
      obtain rfl : n = m + 1 := by omega
      exact ih h (by omega)

/-- R143: a text whose every symbol has a digit is read to its end. -/
theorem exists_toInteger_eq_ok (b : Nat) {lookup : Byte → Option Nat} {s : List Byte} (h : ∀ c ∈ s, lookup c ≠ none) :
    ∃ v k, toInteger b lookup s = .ok v k := by
  cases hp : toInteger b lookup s with
  | ok v k => exact ⟨v, k, rfl⟩
  | err i c =>
    obtain ⟨n, -, hc, hnone, -⟩ := toIntegerFrom_err hp
    exact absurd hnone (h c (List.mem_of_getElem? hc))

/-! ### A symbol map that inverts the lookup (R141, R142) -/

/-- R142: `lookup` and `sym` are the two directions of one correspondence between the digits below `b` and symbols. -/
def InverseSymbols (b : Nat) (lookup : Byte → Option Nat) (sym : Nat → Byte) : Prop :=
  ∀ c d, lookup c = some d ↔ d < b ∧ sym d = c

/-- R141: the alphabet ROM and its inverse. -/
theorem inverseSymbols_58 : InverseSymbols 58 lookup58 sym58 := by
  have hsym : ∀ c : Byte, ∀ d ∈ lookup58 c, d < 58 ∧ sym58 d = c := by decide +kernel
  have hlookup : ∀ d < 58, lookup58 (sym58 d) = some d := by decide
  refine fun c d => ⟨hsym c d, ?_⟩
  rintro ⟨hd, rfl⟩
  exact hlookup d hd

/-- R142: every byte is the symbol of its own number. -/
theorem inverseSymbols_256 : InverseSymbols 256 lookup256 sym256 := by
  intro c d
  rw [lookup256, Option.some.injEq, sym256]
  constructor
  · rintro rfl
    exact ⟨c.isLt, BitVec.eq_of_toNat_eq (Nat.mod_eq_of_lt c.isLt)⟩
  · rintro ⟨hd, rfl⟩
    exact Nat.mod_eq_of_lt hd

section
variable {b : Nat} {lookup : Byte → Option Nat} {sym : Nat → Byte} {ds : List Nat}

theorem lookup_sym (hs : InverseSymbols b lookup sym) {d : Nat} (hd : d < b) : lookup (sym d) = some d :=
  (hs _ _).mpr ⟨hd, rfl⟩

theorem map_lookup_map_sym (hs : InverseSymbols b lookup sym) (hlt : ∀ d ∈ ds, d < b) :
    (ds.map sym).map lookup = ds.map some := by
  rw [List.map_map]
  exact List.map_congr_left fun d hd => lookup_sym hs (hlt d hd)

/-- R143: digits read off a text are below the radix, and the text is their symbols. -/
theorem eq_map_sym (hs : InverseSymbols b lookup sym) {s : List Byte} (h : s.map lookup = ds.map some) :
    (∀ d ∈ ds, d < b) ∧ s = ds.map sym := by
  induction s generalizing ds with
  | nil => cases ds <;> simp_all
  | cons c rest ih =>
    cases ds with
    | nil => simp at h
    | cons d ds =>
      obtain ⟨hc, hrest⟩ := List.cons.inj h
      obtain ⟨hd, rfl⟩ := (hs c d).mp hc
      obtain ⟨hlt, rfl⟩ := ih hrest
      exact ⟨List.forall_mem_cons.mpr ⟨hd, hlt⟩, rfl⟩

theorem takeWhile_lookup_map_sym (hs : InverseSymbols b lookup sym) (hlt : ∀ d ∈ ds, d < b) :
    ((ds.map sym).takeWhile fun c => lookup c == some 0).length = (ds.takeWhile (· == 0)).length := by
  induction ds with
  | nil => rfl
  | cons d rest ih =>
    obtain ⟨hd, hrest⟩ := List.forall_mem_cons.mp hlt
    have hlookup := lookup_sym hs hd
    by_cases h0 : d = 0
    · subst h0
      simp [hlookup, ih hrest]
    · simp [hlookup, h0]

/-- R143 to R145: a list of symbols reads as the value of their digits and the number of leading zeros. -/
theorem toInteger_map_sym (hb : 2 ≤ b) (hs : InverseSymbols b lookup sym) (hlt : ∀ d ∈ ds, d < b) :
    toInteger b lookup (ds.map sym) = .ok (digitsValue b ds) (ds.takeWhile (· == 0)).length := by
  have hdigits : ∀ c ∈ ds.map sym, lookup c ≠ none := by
    rw [List.forall_mem_map]
    intro d hd
    rw [lookup_sym hs (hlt d hd)]
    exact Option.some_ne_none d
  obtain ⟨v, k, hp⟩ := exists_toInteger_eq_ok b hdigits
  obtain ⟨ds', hmap, hv⟩ := toIntegerFrom_ok hp
  have hk := toIntegerFrom_zero hb hp
  rw [map_lookup_map_sym hs hlt] at hmap
  obtain rfl : ds = ds' := List.map_injective_iff.mpr (Option.some_injective _) hmap
  rw [takeWhile_lookup_map_sym hs hlt] at hk
  rw [hp, hv, hk]
  simp

/-- R149: `to_integer` answers `(v, k)` on exactly one text, the one that `from_integer` makes of `(v, k)`. -/
theorem toInteger_eq_ok_iff (hb : 2 ≤ b) (hs : InverseSymbols b lookup sym) {s : List Byte} {v k : Nat} :
    toInteger b lookup s = .ok v k ↔ s = fromInteger v k b sym := by
  constructor
  · intro h
    obtain ⟨ds, hmap, -⟩ := toIntegerFrom_ok h
    obtain ⟨hlt, rfl⟩ := eq_map_sym hs hmap
    rw [toInteger_map_sym hb hs hlt] at h
    obtain ⟨rfl, rfl⟩ := Parsed.ok.inj h
    rw [fromInteger_eq_map, replicate_append_digits hb hlt]
  · rintro rfl
    have hlt : ∀ d ∈ List.replicate k 0 ++ digits b v, d < b := by
      intro d hd
      rcases List.mem_append.mp hd with hd | hd
      · rw [List.eq_of_mem_replicate hd]
        omega
      · exact digits_lt hb v d hd
    have hcount : ((List.replicate k 0 ++ digits b v).takeWhile (· == 0)).length = k := by
      rw [List.takeWhile_append_of_pos (by simp), takeWhile_zero_eq_nil (digits_head?_ne_zero hb v)]
      simp
    have hvalue : digitsValue b (List.replicate k 0 ++ digits b v) = v := by
      rw [digitsValue_replicate_zero_append, digitsValue_digits hb]
    rw [fromInteger_eq_map, toInteger_map_sym hb hs hlt, hcount, hvalue]
end

/-! ### The two radixes (R147, R149) -/

theorem toInteger_58_eq_ok_iff {s : List Byte} {v k : Nat} :
    toInteger 58 lookup58 s = .ok v k ↔ s = fromInteger v k 58 sym58 :=
  toInteger_eq_ok_iff (by decide) inverseSymbols_58

theorem toInteger_256_eq_ok_iff {s : List Byte} {v k : Nat} :
    toInteger 256 lookup256 s = .ok v k ↔ s = fromInteger v k 256 sym256 :=
  toInteger_eq_ok_iff (by decide) inverseSymbols_256

/-- R147: a number has no more base-256 digits than base-58 digits. -/
theorem length_digits_256_le_58 (v : Nat) : (digits 256 v).length ≤ (digits 58 v).length :=
  length_digits_le (by decide) <|
    (lt_pow_length_digits (by decide) v).trans_le (Nat.pow_le_pow_left (by decide) _)

/-- R147: a decoded text has no more bytes than the text has symbols. -/
theorem length_decoded_le {s : List Byte} {v k : Nat} (h : toInteger 58 lookup58 s = .ok v k) :
    (fromInteger v k 256 sym256).length ≤ s.length := by
  rw [toInteger_58_eq_ok_iff.mp h, fromInteger_length, fromInteger_length]
  exact Nat.add_le_add_left (length_digits_256_le_58 v) k

theorem decodeText_eq_some_iff {text bytes : List Byte} :
    decodeText text = some bytes ↔ ∃ v k, text = fromInteger v k 58 sym58 ∧ bytes = fromInteger v k 256 sym256 := by
  simp_rw [← toInteger_58_eq_ok_iff, decodeText]
  cases toInteger 58 lookup58 text <;> simp [eq_comm]

theorem encodeBytes_eq_some_iff {text bytes : List Byte} :
    encodeBytes bytes = some text ↔ ∃ v k, text = fromInteger v k 58 sym58 ∧ bytes = fromInteger v k 256 sym256 := by
  simp_rw [← toInteger_256_eq_ok_iff, encodeBytes]
  cases toInteger 256 lookup256 bytes <;> simp [eq_comm]

/-- R149: decoding and encoding are inverse to each other. -/
theorem encodeBytes_eq_some_iff_decodeText {text bytes : List Byte} :
    encodeBytes bytes = some text ↔ decodeText text = some bytes :=
  encodeBytes_eq_some_iff.trans decodeText_eq_some_iff.symm

end Sys2Proof.Machine
end

section
/-! The statements about the alphabet and the conversion primitives (40_converter.md R141 to R149). -/

namespace Sys2Proof.Machine

/-- Settles O46: the symbol map and the lookup are inverse to each other, and the bytes without a digit are counted. -/
theorem lookupInvertsTheAlphabet : Obligations.LookupInvertsTheAlphabet :=
  ⟨by decide, inverseSymbols_58, by decide +kernel, by decide +kernel⟩

/-- Settles O47: the loop accumulates the value of the digits, and stops at the first symbol without one. -/
theorem toIntegerValueOrFirstBadSymbol : Obligations.ToIntegerValueOrFirstBadSymbol := by
  refine fun b lookup s => ⟨fun v k h => ?_, fun i c h => ?_⟩
  · simpa using toIntegerFrom_ok h
  · obtain ⟨n, hn, hc, hnone, hbefore⟩ := toIntegerFrom_err h
    obtain rfl : i = n := by omega
    exact ⟨hc, hnone, hbefore, toIntegerFrom_take_append h hn⟩

/-- Settles O48: from value 0 the loop counts the leading zeros, and no more once the value is positive. -/
theorem leadingZeroCountLaw : Obligations.LeadingZeroCountLaw := by
  intro b lookup s v k hb h
  simpa using toIntegerFrom_zero hb h

/-- Settles O49: the digits that the divisions give are in canonical form, which is unique. -/
theorem fromIntegerWritesTheDigits : Obligations.FromIntegerWritesTheDigits := by
  refine fun v k b sym hb => ⟨fromInteger_eq v k b sym, digitsValue_digits hb v, digits_lt hb v,
    digits_head?_ne_zero hb v, fun ds hlt hhead hv => ?_⟩
  rw [← hv, digits_digitsValue hb hlt hhead]

/-- Settles O50: the text is `k` zeros and the base-58 digits of `v`, and no number has more digits in base 256. -/
theorem decodedBytesNeverExceedTheText : Obligations.DecodedBytesNeverExceedTheText := by
  intro s v k h
  have hlength := length_decoded_le h
  rw [fromInteger_length] at hlength
  exact ⟨_, fromInteger_length v k 256 sym256, lt_pow_length_digits (by decide) v,
    fun _ hm => length_digits_le (by decide) hm, hlength⟩

/-- Settles O51: each of the two conversions succeeds on its operands, and each inverts the other. -/
theorem conversionRoundTrips : Obligations.ConversionRoundTrips := by
  constructor
  · intro bytes
    obtain ⟨v, k, h⟩ := toInteger_256_ok bytes
    have henc : encodeBytes bytes = some (fromInteger v k 58 sym58) := by rw [encodeBytes, h]
    exact ⟨_, henc, encodeBytes_eq_some_iff_decodeText.mp henc⟩
  · intro text htext
    obtain ⟨v, k, h⟩ := exists_toInteger_eq_ok 58 htext
    have hdec : decodeText text = some (fromInteger v k 256 sym256) := by rw [decodeText, h]
    exact ⟨_, hdec, encodeBytes_eq_some_iff_decodeText.mpr hdec⟩

end Sys2Proof.Machine
end

section
/-! What DEC58 and ENC58 can do (40_converter.md R150, R151), each said once: they fail and write nothing, or they convert. -/

namespace Sys2Proof.Machine

/-- R152, R271: a raised code is an error, and not the one that is never produced. -/
def Raise.Proper (e : Raise) : Prop := e.code ≠ .none ∧ e.code ≠ .digitRange

theorem decoded_length_le_textCap {c : Config} {a : Arch} {v k : Nat} (hn : a.textLen.toNat ≤ c.textCap)
    (hp : toInteger 58 lookup58 a.text = .ok v k) : (fromInteger v k 256 sym256).length ≤ c.textCap :=
  (length_decoded_le hp).trans ((text_length a).trans_le hn)

/-- R150: DEC58 fails, on a text that is too long or does not decode, or stores the decoded bytes. -/
theorem dec58Body_cases (c : Config) (a : Arch) :
    (∃ r, dec58Body c a = Ran.fail a r ∧ r.Proper ∧
        (c.textCap < a.textLen.toNat ∨ decodeText a.text = none)) ∨
      ∃ v k, a.textLen.toNat ≤ c.textCap ∧ toInteger 58 lookup58 a.text = .ok v k ∧
        dec58Body c a =
          Ran.complete { a.putBytes (fromInteger v k 256 sym256) with convInfo := BitVec.ofNat 16 k } := by
  rcases Nat.lt_or_ge c.textCap a.textLen.toNat with hgt | hle
  · exact .inl ⟨_, dec58Body_of_gt hgt, ⟨nofun, nofun⟩, .inl hgt⟩
  · cases hp : toInteger 58 lookup58 a.text with
    | err i b => exact .inl ⟨_, dec58Body_of_err hle hp, ⟨nofun, nofun⟩, .inr (by rw [decodeText, hp])⟩
    | ok v k => exact .inr ⟨v, k, hle, rfl, dec58Body_of_ok hle hp⟩

/-- R151: ENC58 fails, on too many bytes or a text that does not fit, or stores the encoded text. -/
theorem enc58Body_cases (c : Config) (a : Arch) :
    (∃ r, enc58Body c a = Ran.fail a r ∧ r.Proper) ∨
      ∃ v k, a.byteLen.toNat ≤ c.byteCap ∧ toInteger 256 lookup256 a.bytes = .ok v k ∧
        (fromInteger v k 58 sym58).length ≤ c.textCap ∧
        enc58Body c a = Ran.complete { a.putText (fromInteger v k 58 sym58) with convInfo := BitVec.ofNat 16 k } := by
  rcases Nat.lt_or_ge c.byteCap a.byteLen.toNat with hgt | hle
  · exact .inl ⟨_, enc58Body_of_gt hgt, nofun, nofun⟩
  · obtain ⟨v, k, hp⟩ := toInteger_256_ok a.bytes
    rcases Nat.lt_or_ge c.textCap (fromInteger v k 58 sym58).length with hout | hout
    · exact .inl ⟨_, enc58Body_of_overflow hle hp hout, nofun, nofun⟩
    · exact .inr ⟨v, k, hle, hp, hout, enc58Body_of_ok hle hp hout⟩

end Sys2Proof.Machine
end

section
/-! Commands keep what the invariant says of the registers (R41, R147, R152): each body, run on a good register file, leaves
a good one under the same draws, and raises no code but a real error. -/

namespace Sys2Proof.Machine

/-- `a'` is a good register file that a command may leave of `a`: its buffers stand under the draws of `a`. -/
def Arch.Keeps (c : Config) (a a' : Arch) : Prop :=
  a'.Ok c ∧ a'.tb.draw = a.tb.draw ∧ a'.bb.draw = a.bb.draw

/-- What a command body run on `a` leaves, as the invariant needs it. -/
structure Ran.Keeps (c : Config) (a : Arch) (r : Ran) : Prop where
  arch   : a.Keeps c r.arch
  raised : ∀ e, r.raised = some e → e.Proper

variable {c : Config} {a a' a'' : Arch}

/-! ### Register files -/

theorem Arch.Keeps.refl (h : a.Ok c) : a.Keeps c a := ⟨h, rfl, rfl⟩

theorem Arch.Keeps.trans (h : a.Keeps c a') (h' : a'.Keeps c a'') : a.Keeps c a'' := by
  obtain ⟨-, htb, hbb⟩ := h
  obtain ⟨hok, htb', hbb'⟩ := h'
  exact ⟨hok, htb'.trans htb, hbb'.trans hbb⟩

/-- No other field has a part in it. -/
theorem Arch.Keeps.of_same (h : a.Keeps c a') (htb : a''.tb = a'.tb := by simp) (hbb : a''.bb = a'.bb := by simp)
    (herr : a''.err = a'.err := by simp) (hresult : a''.result = a'.result := by simp) : a.Keeps c a'' := by
  rw [Arch.Keeps, Arch.Ok, htb, hbb, herr, hresult]
  exact h

theorem keeps_writeBytes (h : a.Ok c) {i : Nat} {out : List Byte} (hout : i + out.length ≤ c.byteCap) :
    a.Keeps c { a with bb := a.bb.writeRange i out } := by
  obtain ⟨htb, hbb, herr, hres⟩ := h
  exact ⟨⟨htb, wf_writeRange out hbb hout, herr, hres⟩, rfl, writeRange_draw _ _ _⟩

theorem keeps_writeText (h : a.Ok c) {i : Nat} {out : List Byte} (hout : i + out.length ≤ c.textCap) :
    a.Keeps c { a with tb := a.tb.writeRange i out } := by
  obtain ⟨htb, hbb, herr, hres⟩ := h
  exact ⟨⟨wf_writeRange out htb hout, hbb, herr, hres⟩, writeRange_draw _ _ _, rfl⟩

theorem keeps_result (h : a.Ok c) {w : Word} (hw : w = 0 ∨ w = resultWord (resultVersion w)) :
    a.Keeps c { a with result := w } := by
  obtain ⟨htb, hbb, herr, -⟩ := h
  exact ⟨⟨htb, hbb, herr, hw⟩, rfl, rfl⟩

/-! ### Runs -/

theorem Ran.Keeps.complete (h : a.Keeps c a') : (Ran.complete a').Keeps c a := ⟨h, by simp [Ran.complete]⟩

theorem Ran.Keeps.fail (h : a.Keeps c a') {e : Raise} (he : e.Proper) : (Ran.fail a' e).Keeps c a :=
  ⟨h, by simpa [Ran.fail] using he⟩

theorem Ran.Keeps.of_keeps {r : Ran} (h : a.Keeps c a') (hr : r.Keeps c a') : r.Keeps c a :=
  ⟨h.trans hr.arch, hr.raised⟩

theorem Ran.Keeps.andThen {r : Ran} {stage : Arch → Ran} (hr : r.Keeps c a)
    (hstage : ∀ a', a'.Ok c → (stage a').Keeps c a') : (r.andThen stage).Keeps c a := by
  rcases andThen_cases r stage with h | ⟨-, h⟩ <;> rw [h]
  · exact hr
  · exact .of_keeps hr.arch (hstage _ hr.arch.1)

/-! ### Command bodies -/

/-- R147: a decoded text fits the bytes' capacity, which is at least the text's. -/
theorem dec58Body_keeps (hc : c.Valid) (h : a.Ok c) : (dec58Body c a).Keeps c a := by
  rcases dec58Body_cases c a with ⟨r, hr, hproper, -⟩ | ⟨v, k, hn, hp, hr⟩ <;> rw [hr]
  · exact .fail (.refl h) hproper
  · obtain ⟨-, -, -, hcap, -⟩ := hc
    have hout : 0 + (fromInteger v k 256 sym256).length ≤ c.byteCap := by
      rw [Nat.zero_add]
      exact (decoded_length_le_textCap hn hp).trans hcap
    exact .complete (keeps_writeBytes h hout).of_same

theorem enc58Body_keeps (h : a.Ok c) : (enc58Body c a).Keeps c a := by
  rcases enc58Body_cases c a with ⟨r, hr, hproper⟩ | ⟨v, k, -, -, hout, hr⟩ <;> rw [hr]
  · exact .fail (.refl h) hproper
  · exact .complete (keeps_writeText (i := 0) h (by rwa [Nat.zero_add])).of_same

theorem hash2Body_keeps (h : a.Ok c) : (hash2Body c a).Keeps c a := by
  rcases Nat.lt_or_ge c.byteCap a.byteLen.toNat with hn | hn
  · rw [hash2Body_of_gt hn]
    exact .fail (.refl h) ⟨nofun, nofun⟩
  · rw [hash2Body_of_le hn]
    exact .complete (Arch.Keeps.refl h).of_same

theorem chkverBody_keeps (h : a.Ok c) : (chkverBody c a).Keeps c a := by
  rcases Nat.lt_or_ge c.byteCap a.byteLen.toNat with hn | hn
  · rw [chkverBody_of_gt hn]
    exact .fail (.refl h) ⟨nofun, nofun⟩
  · by_cases hsum : checksumHolds a.bytes
    · rw [chkverBody_of_match hn hsum]
      exact .complete (Arch.Keeps.refl h).of_same
    · rw [chkverBody_of_mismatch hn hsum]
      exact .fail (Arch.Keeps.refl h).of_same ⟨nofun, nofun⟩

/-- R222: the four appended bytes fit, or nothing is written. -/
theorem chkappBody_keeps (h : a.Ok c) : (chkappBody c a).Keeps c a := by
  rcases Nat.lt_or_ge c.byteCap a.byteLen.toNat with hn | hn
  · rw [chkappBody_of_gt hn]
    exact .fail (.refl h) ⟨nofun, nofun⟩
  · rcases Nat.lt_or_ge c.byteCap (a.byteLen.toNat + 4) with ho | ho
    · rw [chkappBody_of_overflow hn ho]
      exact .fail (.refl h) ⟨nofun, nofun⟩
    · rw [chkappBody_of_fits ho]
      have hout : a.byteLen.toNat + ((Sha.dsha a.bytes).take 4).length ≤ c.byteCap := by simpa using ho
      exact .complete (keeps_writeBytes h hout).of_same

theorem addrChecks_keeps (h : a.Ok c) : (addrChecks c a).Keeps c a := by
  rcases Nat.lt_or_ge c.byteCap a.byteLen.toNat with hn | hn
  · rw [addrChecks_of_gt hn]
    exact .fail (.refl h) ⟨nofun, nofun⟩
  · by_cases hlen : a.byteLen.toNat = 21
    · cases hv : allowed a.allow (a.bb.read 0) with
      | true =>
        rw [addrChecks_of_allowed hn hlen hv]
        exact .complete (keeps_result h (.inr (by rw [resultVersion_resultWord])))
      | false =>
        rw [addrChecks_of_version hn hlen hv]
        exact .fail (.refl h) ⟨nofun, nofun⟩
    · rw [addrChecks_of_length hn hlen]
      exact .fail (.refl h) ⟨nofun, nofun⟩

theorem keeps_clearResult (h : a.Ok c) : a.Keeps c a.clearResult := keeps_result h (.inl rfl)

theorem addrBody_keeps (h : a.Ok c) : (addrBody c a).Keeps c a :=
  .of_keeps (keeps_clearResult h) (addrChecks_keeps (keeps_clearResult h).1)

theorem validateBody_keeps (hc : c.Valid) (h : a.Ok c) : (validateBody c a).Keeps c a :=
  .of_keeps (keeps_clearResult h) <|
    ((dec58Body_keeps hc (keeps_clearResult h).1).andThen fun _ => chkverBody_keeps).andThen fun _ => addrChecks_keeps

theorem commandBody_keeps (hc : c.Valid) (h : a.Ok c) (i : Instr) : (commandBody c a i).Keeps c a := by
  cases i with
  | nop => exact .complete (.refl h)
  | dec58 => exact dec58Body_keeps hc h
  | enc58 => exact enc58Body_keeps h
  | hash2 => exact hash2Body_keeps h
  | chkver => exact chkverBody_keeps h
  | chkapp => exact chkappBody_keeps h
  | addr => exact addrBody_keeps h
  | validate => exact validateBody_keeps hc h

/-- R114: an illegal word runs no pseudocode. -/
theorem wordRun_keeps (hc : c.Valid) (h : a.Ok c) (w : Word) : (wordRun c w a).Keeps c a := by
  unfold wordRun
  split
  · exact commandBody_keeps hc h _
  · exact .fail (.refl h) ⟨nofun, nofun⟩

end Sys2Proof.Machine
end

section
/-! The invariant over one step (R320, R331): a completion, a host access and a hardware reset keep it. -/

namespace Sys2Proof.Machine

variable {s t : State}

theorem source_ok_of_coherent (h : s.Coherent) {c : Config} (hok : s.arch.Ok c) : s.source.Ok c := by
  rw [source_of_coherent h]
  exact hok

theorem source_tb_of_coherent (h : s.Coherent) : s.source.tb = s.arch.tb := by rw [source_of_coherent h]

theorem source_bb_of_coherent (h : s.Coherent) : s.source.bb = s.arch.bb := by rw [source_of_coherent h]

/-- The pending actions and the bus answer have no part in the invariant, and draws may be used up. -/
theorem inv_of_same_block (h : s.Inv) (hcfg : t.cfg = s.cfg) (harch : t.arch = s.arch) (hengine : t.engine = s.engine)
    (hdraws : s.draws ≤ t.draws) : t.Inv := by
  obtain ⟨cfg, arch, engine, draws, inputs, response⟩ := t
  subst hcfg harch hengine
  obtain ⟨htb, hbb, hne⟩ := h.draws
  exact ⟨h.build, h.arch, h.coherent, ⟨htb.trans_le hdraws, hbb.trans_le hdraws, hne⟩, h.info⟩

/-! ### Completions -/

theorem Ran.info_of_code_none {c : Config} {a : Arch} {r : Ran} (hr : r.Keeps c a) (h : r.code = .none) : r.info = 0 := by
  unfold Ran.code at h
  unfold Ran.info
  cases he : r.raised with
  | none => rfl
  | some e =>
    rw [he] at h
    exact absurd h (hr.raised e he).1

theorem Ran.code_ne_digitRange {c : Config} {a : Arch} {r : Ran} (hr : r.Keeps c a) : r.code ≠ .digitRange := by
  unfold Ran.code
  cases he : r.raised with
  | none => exact nofun
  | some e => exact (hr.raised e he).2

/-- R123: a completion commits what the run left and its code. -/
theorem finish_inv (h : s.Inv) {r : Ran} (hr : r.Keeps s.cfg s.source) : (s.finish r).Inv := by
  obtain ⟨⟨htb, hbb, -, hresult⟩, hdrawTb, hdrawBb⟩ := hr.arch
  rw [source_tb_of_coherent h.coherent] at hdrawTb
  rw [source_bb_of_coherent h.coherent] at hdrawBb
  refine ⟨h.build, ⟨htb, hbb, r.code_ne_digitRange hr, hresult⟩, trivial, ?_, fun _ => r.info_of_code_none hr⟩
  rw [State.DrawsFresh, finish_tb, finish_bb, finish_draws, hdrawTb, hdrawBb]
  exact h.draws

theorem engineTurn_inv (h : s.Inv) (hstep : engineTurn s = .next t) : t.Inv := by
  cases hs : s.engine with
  | idle =>
    rw [engineTurn_of_idle hs] at hstep
    exact Host.Outcome.next.inj hstep ▸ h
  | busy w S =>
    rw [engineTurn_of_busy hs, ← source_of_busy hs] at hstep
    exact Host.Outcome.next.inj hstep ▸
      finish_inv h (wordRun_keeps h.build (source_ok_of_coherent h.coherent h.arch) w)

/-! ### Resets -/

theorem reset_ok {c : Config} {tb bb : Memory} (htb : tb.wf c.textCap = true) (hbb : bb.wf c.byteCap = true) :
    (Arch.reset tb bb).Ok c := ⟨htb, hbb, nofun, .inl rfl⟩

/-- R302, R303: the buffer that is drawn anew takes a draw that no buffer has. -/
theorem softReset_inv (h : s.Inv) : s.softReset.Inv := by
  obtain ⟨hwfTb, hwfBb, -, -⟩ := h.arch
  obtain ⟨htb, hbb, hne⟩ := h.draws
  rcases softReset_cases s with e | e | e <;> rw [e]
  · exact ⟨h.build, reset_ok hwfTb hwfBb, trivial, ⟨htb, hbb, hne⟩, fun _ _ => rfl⟩
  · exact ⟨h.build, reset_ok (wf_unspecified _ _) hwfBb, trivial,
      ⟨Nat.lt_succ_self _, hbb.trans (Nat.lt_succ_self _), hbb.ne'⟩, fun _ _ => rfl⟩
  · exact ⟨h.build, reset_ok hwfTb (wf_unspecified _ _), trivial,
      ⟨htb.trans (Nat.lt_succ_self _), Nat.lt_succ_self _, htb.ne⟩, fun _ _ => rfl⟩

theorem hardReset_inv (h : s.Inv) : s.hardReset.Inv where
  build := h.build
  arch := reset_ok (wf_unspecified _ _) (wf_unspecified _ _)
  coherent := trivial
  draws := ⟨Nat.lt_add_of_pos_right (by decide), Nat.lt_succ_self _, (Nat.lt_succ_self _).ne⟩
  info := fun _ _ => rfl

/-! ### Host accesses -/

/-- R320: the host owns `IE` and `OVR` and may clear `DONE`, which a running command holds at 0. -/
theorem withHostFlags_inv (h : s.Inv) (ie ovr : Bool) {done : Bool} (hdone : done = true → s.arch.done = true) :
    ({ s with arch := { s.arch with ie := ie, done := done, ovr := ovr } } : State).Inv := by
  refine ⟨h.build, h.arch, ?_, h.draws, h.info⟩
  have hcoh := h.coherent
  unfold State.Coherent at hcoh ⊢
  cases hs : s.engine with
  | idle => trivial
  | busy w S =>
    rw [hs] at hcoh
    obtain ⟨harch, hS, herr⟩ := hcoh
    have hclear : done = false := by
      rw [harch, hS] at hdone
      simpa using hdone
    refine ⟨?_, hS, herr⟩
    show ({ s.arch with ie := ie, done := done, ovr := ovr } : Arch) = { S with ie := ie, ovr := ovr }
    rw [harch, hclear, ← hS]

theorem start_inv (h : s.Inv) (w : Word) : (s.start w).Inv := by
  obtain ⟨htb, hbb, -, hresult⟩ := h.arch
  exact ⟨h.build, ⟨htb, hbb, nofun, hresult⟩, ⟨rfl, rfl, rfl⟩, h.draws, nofun⟩

/-- R38 to R46, R85: a plain register write stores inside the capacities. -/
theorem plainWrite_inv (h : s.Inv) (hidle : s.engine = .idle) {w : Word} {f : Arch → Arch} (hf : PlainWrite s.cfg w f) :
    ({ s with arch := f s.arch } : State).Inv := by
  obtain ⟨htb, hbb, herr, hresult⟩ := h.arch
  obtain ⟨htext, -, hbyte, -, -⟩ := h.build
  have hcoh : ∀ a, ({ s with arch := a } : State).Coherent := fun a => by simp [State.Coherent, hidle]
  cases hf with
  | textLen => exact ⟨h.build, h.arch, hcoh _, h.draws, h.info⟩
  | byteLen => exact ⟨h.build, h.arch, hcoh _, h.draws, h.info⟩
  | allow i => exact ⟨h.build, h.arch, hcoh _, h.draws, h.info⟩
  | tb j hj =>
    refine ⟨h.build, ⟨wf_writeWord w htb htext hj, hbb, herr, hresult⟩, hcoh _, ?_, h.info⟩
    simpa [State.DrawsFresh] using h.draws
  | bb j hj =>
    refine ⟨h.build, ⟨htb, wf_writeWord w hbb hbyte hj, herr, hresult⟩, hcoh _, ?_, h.info⟩
    simpa [State.DrawsFresh] using h.draws

theorem writeEffect_inv (h : s.Inv) {w : Word} (ht : WriteEffect s w t) : t.Inv := by
  cases ht with
  | ignored => exact h
  | overrun => exact withHostFlags_inv h _ _ id
  | start => exact start_inv h w
  | softReset => exact softReset_inv h
  | enable => exact withHostFlags_inv h _ _ id
  | status => exact withHostFlags_inv h _ _ fun hdone => (Bool.and_eq_true_iff.mp hdone).1
  | plain hidle f hf => exact plainWrite_inv h (busy_eq_false_iff.mp hidle) hf

theorem busAccess_inv (h : s.Inv) (a : Access) : (s.busAccess a).Inv := by
  rcases busAccess_cases s a with e | ⟨v, d, e, hd⟩ | ⟨w, u, hu, e⟩ <;> rw [e]
  · exact inv_of_same_block h rfl rfl rfl le_rfl
  · exact inv_of_same_block h rfl rfl rfl hd
  · exact inv_of_same_block (writeEffect_inv h hu) rfl rfl rfl le_rfl

/-! ### Steps -/

theorem act_inv (h : s.Inv) {x : Input} (hact : act s x = .next t) : t.Inv := by
  cases x with
  | engineTurn => exact engineTurn_inv h hact
  | access a => exact Host.Outcome.next.inj hact ▸ busAccess_inv h a
  | hardReset => exact Host.Outcome.next.inj hact ▸ hardReset_inv h

/-- Settles O59: a step is the engine's turn or the next action, on a state that differs only in what is still pending. -/
theorem everyStepKeepsTheInvariant : Obligations.EveryStepKeepsTheInvariant := by
  intro s t h hstep
  rcases step_cases s with ⟨-, e⟩ | ⟨x, rest, -, e⟩ <;> rw [e] at hstep
  · exact engineTurn_inv h hstep
  · exact act_inv (s := { s with inputs := rest }) (inv_of_same_block h rfl rfl rfl le_rfl) hstep

end Sys2Proof.Machine
end

section
/-! The converter's commands at a coherent state (40_converter.md R150, R151): the operands are the current ones, and the
completion is that of the current state. -/

namespace Sys2Proof.Machine

/-! ### Completions -/

variable {s t : State}

theorem source_textLen_of_coherent (h : s.Coherent) : s.source.textLen = s.arch.textLen := by rw [source_of_coherent h]

theorem source_byteLen_of_coherent (h : s.Coherent) : s.source.byteLen = s.arch.byteLen := by rw [source_of_coherent h]

theorem source_text_of_coherent (h : s.Coherent) : s.source.text = s.arch.text := by rw [source_of_coherent h]; rfl

theorem source_bytes_of_coherent (h : s.Coherent) : s.source.bytes = s.arch.bytes := by rw [source_of_coherent h]; rfl

/-- R123, R275: a command that raises before any write completes with the code and the detail word alone. -/
theorem finish_fail_of_coherent (h : s.Coherent) (r : Raise) :
    s.finish (Ran.fail s.source r) = s.ended r.code r.info := by
  rw [State.finish, fail_arch, source_of_coherent h]
  rfl

theorem finish_decoded_of_coherent (h : s.Coherent) (out : List Byte) (k : BitVec 16) :
    s.finish (Ran.complete { s.source.putBytes out with convInfo := k }) = s.endedWith .none 0 (fun a =>
      { a with bb := s.arch.bb.writeRange 0 out, byteLen := BitVec.ofNat 16 out.length, convInfo := k }) := by
  rw [State.finish, complete_arch, source_of_coherent h]
  rfl

theorem finish_encoded_of_coherent (h : s.Coherent) (out : List Byte) (k : BitVec 16) :
    s.finish (Ran.complete { s.source.putText out with convInfo := k }) = s.endedWith .none 0 (fun a =>
      { a with tb := s.arch.tb.writeRange 0 out, textLen := BitVec.ofNat 16 out.length, convInfo := k }) := by
  rw [State.finish, complete_arch, source_of_coherent h]
  rfl

/-! ### Sizes -/

theorem toNat_ofNat_sixteen {n : Nat} (h : n ≤ 256) : (BitVec.ofNat 16 n).toNat = n :=
  Nat.mod_eq_of_lt (by omega)

theorem leadingZeros_le_length (v k b : Nat) (sym : Nat → Byte) : k ≤ (fromInteger v k b sym).length := by simp

theorem toInteger_err_lt {b : Nat} {lookup : Byte → Option Nat} {text : List Byte} {i : Nat} {c : Byte}
    (h : toInteger b lookup text = .err i c) : i < text.length := by
  obtain ⟨n, hn, hc, -⟩ := toIntegerFrom_err h
  have := (List.getElem?_eq_some_iff.mp hc).1
  omega

/-! ### Stored operands read back -/

theorem text_putText (a : Arch) {out : List Byte} (h : out.length ≤ 256) : (a.putText out).text = out := by
  rw [Arch.text, putText_tb, putText_textLen, toNat_ofNat_sixteen h, readRange_writeRange]

theorem bytes_putBytes (a : Arch) {out : List Byte} (h : out.length ≤ 256) : (a.putBytes out).bytes = out := by
  rw [Arch.bytes, putBytes_bb, putBytes_byteLen, toNat_ofNat_sixteen h, readRange_writeRange]

/-- R150: DEC58 on a text that fits and stands for `(v, k)` succeeds and leaves the bytes of `(v, k)`. -/
theorem exec_dec58_of_text (h : s.source.textLen.toNat ≤ s.cfg.textCap) (hcap : s.cfg.textCap ≤ 256) {v k : Nat}
    (htext : s.source.text = fromInteger v k 58 sym58) :
    ∃ u, exec .dec58 s = .next u ∧ u.arch.err = .none ∧ u.arch.bytes = fromInteger v k 256 sym256 ∧
      u.arch.byteLen = BitVec.ofNat 16 (fromInteger v k 256 sym256).length ∧ u.arch.convInfo = BitVec.ofNat 16 k := by
  have hp := toInteger_58_eq_ok_iff.mpr htext
  refine ⟨_, exec_eq _ _, ?_⟩
  rw [commandBody, dec58Body_of_ok h hp]
  exact ⟨rfl, bytes_putBytes _ ((decoded_length_le_textCap h hp).trans hcap), rfl, rfl⟩

/-- R151: ENC58 on bytes that stand for `(v, k)` and whose text fits succeeds and leaves the text of `(v, k)`. -/
theorem exec_enc58_of_bytes (h : s.source.byteLen.toNat ≤ s.cfg.byteCap) {v k : Nat}
    (hbytes : s.source.bytes = fromInteger v k 256 sym256)
    (hout : (fromInteger v k 58 sym58).length ≤ s.cfg.textCap) (hcap : s.cfg.textCap ≤ 256) :
    ∃ u, exec .enc58 s = .next u ∧ u.arch.err = .none ∧ u.arch.text = fromInteger v k 58 sym58 ∧
      u.arch.textLen = BitVec.ofNat 16 (fromInteger v k 58 sym58).length ∧ u.arch.convInfo = BitVec.ofNat 16 k := by
  have hp := toInteger_256_eq_ok_iff.mpr hbytes
  refine ⟨_, exec_eq _ _, ?_⟩
  rw [commandBody, enc58Body_of_ok h hp hout]
  exact ⟨rfl, text_putText _ (hout.trans hcap), rfl, rfl⟩

/-! ### What a success says of the operand -/

theorem exec_cfg {i : Instr} (h : exec i s = .next t) : t.cfg = s.cfg := by rw [exec_next h, finish_cfg]

theorem text_of_dec58_success (hexec : exec .dec58 s = .next t) (herr : t.arch.err = .none) :
    s.source.textLen.toNat ≤ s.cfg.textCap ∧ ∃ v k, s.source.text = fromInteger v k 58 sym58 := by
  rw [exec_next hexec, finish_err, commandBody] at herr
  rcases dec58Body_cases s.cfg s.source with ⟨r, hr, hproper, -⟩ | ⟨v, k, hn, hp, -⟩
  · rw [hr] at herr
    exact absurd herr hproper.1
  · exact ⟨hn, v, k, toInteger_58_eq_ok_iff.mp hp⟩

theorem bytes_of_enc58_success (hexec : exec .enc58 s = .next t) (herr : t.arch.err = .none) :
    s.source.byteLen.toNat ≤ s.cfg.byteCap ∧
      ∃ v k, s.source.bytes = fromInteger v k 256 sym256 ∧ (fromInteger v k 58 sym58).length ≤ s.cfg.textCap := by
  rw [exec_next hexec, finish_err, commandBody] at herr
  rcases enc58Body_cases s.cfg s.source with ⟨r, hr, hproper⟩ | ⟨v, k, hn, hp, hout, -⟩
  · rw [hr] at herr
    exact absurd herr hproper.1
  · exact ⟨hn, v, k, toInteger_256_eq_ok_iff.mp hp, hout⟩

end Sys2Proof.Machine
end

section
/-! Where the converter's commands store (R111, R325): the frame of each body with its output named. -/

namespace Sys2Proof.Machine

/-- R150, R325: `a'` is `a` with at most the bytes decoded from the text of `a` stored; without them, nothing is. -/
structure Arch.DecodedInto (c : Config) (a a' : Arch) : Prop where
  beyond  : ∀ bytes, decodeText a.text = some bytes → ∀ j, bytes.length ≤ j → a'.bb.read j = a.bb.read j
  failed  : decodeText a.text = none ∨ c.textCap < a.textLen.toNat →
    (∀ j, a'.bb.read j = a.bb.read j) ∧ a'.byteLen = a.byteLen ∧ a'.convInfo = a.convInfo ∧ a'.digest = a.digest
  tb      : a'.tb = a.tb
  textLen : a'.textLen = a.textLen

theorem dec58Body_of_failed {c : Config} {a : Arch} (h : decodeText a.text = none ∨ c.textCap < a.textLen.toNat) :
    ∃ r, dec58Body c a = Ran.fail a r := by
  rcases dec58Body_cases c a with ⟨r, hr, -, -⟩ | ⟨v, k, hn, hp, -⟩
  · exact ⟨r, hr⟩
  · have hdec : decodeText a.text = some (fromInteger v k 256 sym256) := by rw [decodeText, hp]
    rcases h with hnone | hgt
    · exact absurd (hdec.symm.trans hnone) (Option.some_ne_none _)
    · exact absurd hgt (Nat.not_lt.mpr hn)

theorem dec58Body_bb_beyond (c : Config) {a : Arch} {bytes : List Byte} (h : decodeText a.text = some bytes) {j : Nat}
    (hj : bytes.length ≤ j) : (dec58Body c a).arch.bb.read j = a.bb.read j := by
  rcases dec58Body_cases c a with ⟨r, hr, -, -⟩ | ⟨v, k, -, hp, hr⟩ <;> rw [hr]
  · rfl
  · rw [decodeText, hp] at h
    obtain rfl := Option.some.inj h
    exact read_writeRange_outside _ a.bb (.inr (by rwa [Nat.zero_add]))

theorem dec58Body_stores (c : Config) (a : Arch) : a.DecodedInto c (dec58Body c a).arch := by
  obtain ⟨m, n, k, hframe⟩ := dec58Body_frame c a
  refine ⟨fun _ h _ hj => dec58Body_bb_beyond c h hj, fun h => ?_, by rw [hframe], by rw [hframe]⟩
  obtain ⟨r, hr⟩ := dec58Body_of_failed h
  rw [hr]
  exact ⟨fun _ => rfl, rfl, rfl, rfl⟩

/-- A field that a stage keeps is kept by running the stage next. -/
theorem andThen_field {β : Type} (f : Arch → β) (r : Ran) {stage : Arch → Ran} (h : ∀ a, f (stage a).arch = f a) :
    f (r.andThen stage).arch = f r.arch := by
  rcases andThen_cases r stage with e | ⟨-, e⟩ <;> rw [e]
  exact h r.arch

theorem chkverBody_bb (c : Config) (a : Arch) : (chkverBody c a).arch.bb = a.bb := by
  obtain ⟨D, n, h⟩ := chkverBody_frame c a
  rw [h]

theorem addrChecks_bb (c : Config) (a : Arch) : (addrChecks c a).arch.bb = a.bb := by
  obtain ⟨w, h⟩ := addrChecks_frame c a
  rw [h]

/-- R245: VALIDATE stores no byte after its conversion. -/
theorem validateBody_bb (c : Config) (a : Arch) :
    (validateBody c a).arch.bb = (dec58Body c a.clearResult).arch.bb :=
  (andThen_field Arch.bb _ (addrChecks_bb c)).trans (andThen_field Arch.bb _ (chkverBody_bb c))

theorem validateBody_stores (c : Config) (a : Arch) : a.DecodedInto c (validateBody c a).arch := by
  obtain ⟨m, n, k, D, w, hframe⟩ := validateBody_frame c a
  refine ⟨fun _ h _ hj => ?_, fun h => ?_, by rw [hframe], by rw [hframe]⟩
  · rw [validateBody_bb]
    exact dec58Body_bb_beyond c (a := a.clearResult) h hj
  · obtain ⟨r, hr⟩ := dec58Body_of_failed (a := a.clearResult) h
    rw [validateBody, hr, fail_andThen, fail_andThen]
    exact ⟨fun _ => rfl, rfl, rfl, rfl⟩

/-- R151, R325: ENC58 stores the encoded text, or fails and stores nothing. -/
theorem enc58Body_stores (c : Config) (a : Arch) :
    (∃ r, enc58Body c a = Ran.fail a r) ∨ ∃ text k, encodeBytes a.bytes = some text ∧
      enc58Body c a = Ran.complete { a.putText text with convInfo := k } := by
  rcases enc58Body_cases c a with ⟨r, hr, -⟩ | ⟨v, k, -, hp, -, hr⟩
  · exact .inl ⟨r, hr⟩
  · exact .inr ⟨_, _, by rw [encodeBytes, hp], hr⟩

end Sys2Proof.Machine
end

section
/-! The statements about DEC58 and ENC58 (40_converter.md R150 to R152). -/

namespace Sys2Proof.Machine

/-- Settles O30, clause by clause of the body; the output is no longer than the text, so both counts fit sixteen bits. -/
theorem dec58ConvertsTextToBytes : Obligations.Dec58ConvertsTextToBytes := by
  refine ⟨decode_encode .dec58, fun s hvalid hcoh => ?_⟩
  obtain ⟨-, -, -, htext, hbyte⟩ := hvalid
  have hlen := source_textLen_of_coherent hcoh
  rw [exec_eq, commandBody, ← source_text_of_coherent hcoh, ← hlen]
  refine ⟨fun hgt => ?_, fun i c hle hp => ?_, fun v k hle hp => ?_⟩
  · rw [dec58Body_of_gt hgt, finish_fail_of_coherent hcoh, lenRangeInfo_tb]
  · have hi := toInteger_err_lt hp
    rw [text_length] at hi
    rw [dec58Body_of_err hle hp, finish_fail_of_coherent hcoh, badSymbolInfo_eq c (by omega)]
  · have hout := length_decoded_le hp
    rw [text_length] at hout
    have hk := leadingZeros_le_length v k 256 sym256
    rw [dec58Body_of_ok hle hp, finish_decoded_of_coherent hcoh]
    exact ⟨_, _, stored_writeRange _ 0 _, rfl, rfl, toNat_ofNat_sixteen (by omega), toNat_ofNat_sixteen (by omega), hout⟩

/-- Settles O31, clause by clause of the body; a text that is stored is within the capacity, so both counts fit sixteen
bits. -/
theorem enc58ConvertsBytesToText : Obligations.Enc58ConvertsBytesToText := by
  refine ⟨decode_encode .enc58, fun s hvalid hcoh => ?_⟩
  obtain ⟨-, -, -, htext, hbyte⟩ := hvalid
  have hlen := source_byteLen_of_coherent hcoh
  rw [exec_eq, commandBody, ← source_bytes_of_coherent hcoh, ← hlen]
  refine ⟨fun hgt => ?_, fun hle => ?_⟩
  · rw [enc58Body_of_gt hgt, finish_fail_of_coherent hcoh, lenRangeInfo_bb]
  · obtain ⟨v, k, hp⟩ := toInteger_256_ok s.source.bytes
    refine ⟨v, k, hp, fun hover => ?_, fun hfits => ?_⟩
    · rw [enc58Body_of_overflow hle hp hover, finish_fail_of_coherent hcoh, lengthInfo_eq]
    · have hk := leadingZeros_le_length v k 58 sym58
      rw [enc58Body_of_ok hle hp hfits, finish_encoded_of_coherent hcoh]
      exact ⟨_, _, stored_writeRange _ 0 _, rfl, rfl, toNat_ofNat_sixteen (by omega), toNat_ofNat_sixteen (by omega)⟩

/-- Settles O56: each success makes the operand the form of some `(v, k)` in one radix and leaves its form in the other,
which is the operand that the second command needs. -/
theorem encodeThenDecodeRestores : Obligations.EncodeThenDecodeRestores := by
  constructor
  · rintro s t hcoh ⟨-, -, -, htextCap, hbyteCap⟩ hexec herr
    obtain ⟨hn, v, k, hbytes, hout⟩ := bytes_of_enc58_success hexec herr
    obtain ⟨t', ht', -, htext, hlen, hconv⟩ := exec_enc58_of_bytes hn hbytes hout (by omega)
    obtain rfl : t' = t := Host.Outcome.next.inj (ht'.symm.trans hexec)
    have hcfg := exec_cfg hexec
    have hfits : t'.arch.textLen.toNat ≤ t'.cfg.textCap := by
      rw [hlen, toNat_ofNat_sixteen (by omega), hcfg]
      exact hout
    obtain ⟨u, hu, herr', hbytes', hlen', hconv'⟩ :=
      exec_dec58_of_text (s := t'.start (encode .dec58)) hfits (by rw [start_cfg, hcfg]; omega) htext
    rw [source_bytes_of_coherent hcoh] at hbytes
    refine ⟨u, hu, herr', ?_, hbytes'.trans hbytes.symm, hconv'.trans hconv.symm⟩
    rw [hlen', ← hbytes, bytes_length, BitVec.ofNat_toNat, BitVec.setWidth_eq]
  · rintro s t hcoh ⟨-, -, -, htextCap, hbyteCap⟩ hexec herr
    obtain ⟨hn, v, k, htext⟩ := text_of_dec58_success hexec herr
    obtain ⟨t', ht', -, hbytes, hlen, hconv⟩ := exec_dec58_of_text hn (by omega) htext
    obtain rfl : t' = t := Host.Outcome.next.inj (ht'.symm.trans hexec)
    have hcfg := exec_cfg hexec
    have hout : (fromInteger v k 58 sym58).length ≤ s.cfg.textCap := by rwa [← htext, text_length]
    have hshort := length_decoded_le (toInteger_58_eq_ok_iff.mpr htext)
    rw [text_length] at hshort
    have hfits : t'.arch.byteLen.toNat ≤ t'.cfg.byteCap := by
      rw [hlen, toNat_ofNat_sixteen (by omega), hcfg]
      omega
    obtain ⟨u, hu, herr', htext', hlen', hconv'⟩ :=
      exec_enc58_of_bytes (s := t'.start (encode .enc58)) hfits hbytes (by rwa [start_cfg, hcfg])
        (by rw [start_cfg, hcfg]; omega)
    rw [source_text_of_coherent hcoh] at htext
    refine ⟨u, hu, herr', ?_, htext'.trans htext.symm, hconv'.trans hconv.symm⟩
    rw [hlen', ← htext, text_length, BitVec.ofNat_toNat, BitVec.setWidth_eq]

/-- Settles O42: the two ends of ENC58's body. -/
theorem encodingStoresOnlyItsOutput : Obligations.EncodingStoresOnlyItsOutput := by
  intro s t hcoh hexec
  rw [exec_next hexec, commandBody]
  rcases enc58Body_stores s.cfg s.source with ⟨r, hr⟩ | ⟨text, k, henc, hr⟩ <;> rw [hr]
  · rw [finish_fail_of_coherent hcoh]
    exact ⟨fun _ _ _ _ => rfl, fun _ => ⟨fun _ => rfl, rfl, rfl⟩, fun _ => rfl, rfl, rfl, rfl⟩
  · rw [finish_encoded_of_coherent hcoh]
    rw [source_bytes_of_coherent hcoh] at henc
    refine ⟨fun text' htext' j hj => ?_, fun herr => absurd rfl herr, fun _ => rfl, rfl, rfl, rfl⟩
    obtain rfl : text = text' := Option.some.inj (henc.symm.trans htext')
    exact read_writeRange_outside text s.arch.tb (.inr (by simpa using hj))

/-- Settles O41: both bodies store at most what the text decodes to, on the snapshot, whose buffers and lengths are the
current ones. -/
theorem decodingStoresOnlyItsOutput : Obligations.DecodingStoresOnlyItsOutput := by
  intro i s t hi hcoh hexec
  have hstores : s.source.DecodedInto s.cfg (commandBody s.cfg s.source i).arch := by
    rcases hi with rfl | rfl
    · exact dec58Body_stores _ _
    · exact validateBody_stores _ _
  have hkept : i = .dec58 → t.arch.digest = s.arch.digest ∧ t.arch.result = s.arch.result := by
    rintro rfl
    obtain ⟨m, n, k, hframe⟩ := dec58Body_frame s.cfg s.source
    rw [exec_next hexec, finish_digest, finish_result, commandBody, hframe, source_of_coherent hcoh]
    exact ⟨rfl, rfl⟩
  rw [exec_next hexec] at hkept ⊢
  generalize commandBody s.cfg s.source i = r at hstores hkept ⊢
  rw [source_of_coherent hcoh] at hstores
  obtain ⟨hbeyond, hfailed, htb, htextLen⟩ := hstores
  exact ⟨hbeyond, hfailed, fun j => congrArg (·.read j) htb, htextLen, hkept⟩

end Sys2Proof.Machine
end

section
/-! SHA-256's padding and its published digests (41_hash.md R180 to R191). -/

namespace Sys2Proof.Machine

/-! ### The length field -/

/-- R189: `be32` is big-endian. -/
theorem digitsValue_be32 (x : Word) : digitsValue 256 ((Sha.be32 x).map BitVec.toNat) = x.toNat := by
  have hx := x.isLt
  simp only [Sha.be32, List.map_cons, List.map_nil, digitsValue, List.length_cons, List.length_nil,
    BitVec.extractLsb'_toNat, Nat.shiftRight_eq_div_pow]
  omega

@[simp] theorem be64_length (x : Nat) : (Sha.be64 x).length = 8 := rfl

/-- R185: `be64` is big-endian, on the numbers that 8 bytes can hold. -/
theorem digitsValue_be64 {x : Nat} (hx : x < 2 ^ 64) : digitsValue 256 ((Sha.be64 x).map BitVec.toNat) = x := by
  rw [Sha.be64, List.map_append, digitsValue_append, digitsValue_be32, digitsValue_be32, List.length_map, be32_length,
    BitVec.toNat_ofNat, BitVec.toNat_ofNat]
  omega

/-! ### The padding -/

theorem padZeros_lt (len : Nat) : Sha.padZeros len < 64 := Nat.mod_lt _ (by decide)

/-- R185: message, `80`, zeros and length field are `blockCount` whole blocks. -/
theorem add_padZeros_add_eight (len : Nat) : len + 1 + Sha.padZeros len + 8 = 64 * Sha.blockCount len := by
  unfold Sha.padZeros Sha.blockCount
  omega

/-- R185: the length field starts 8 bytes before the end of a block. -/
theorem add_padZeros_mod (len : Nat) : (len + 1 + Sha.padZeros len) % 64 = 56 := by
  have hblocks := add_padZeros_add_eight len
  omega

theorem pad_length (m : List Byte) : (Sha.pad m).length = 64 * Sha.blockCount m.length := by
  rw [← add_padZeros_add_eight, Sha.pad]
  simp only [List.length_append, List.length_cons, List.length_nil, List.length_replicate, be64_length]

/-- Settles O53: the parts of `pad` are the witnesses; the bit length of a message below `2 ^ 61` bytes fits its field. -/
theorem paddingFillsWholeBlocks : Obligations.PaddingFillsWholeBlocks := by
  intro m hm
  exact ⟨Sha.padZeros m.length, Sha.be64 (8 * m.length), rfl, be64_length _, digitsValue_be64 (by omega),
    add_padZeros_mod _, padZeros_lt _, pad_length m⟩

/-! ### The published digests

Each is one evaluation of the model on a fixed message, so the kernel computes it. -/

/-- V-SHA-1. -/
theorem sha256_empty : digitsValue 256 ((Sha.sha256 []).map BitVec.toNat) =
    0xe3b0c44298fc1c149afbf4c8996fb92427ae41e4649b934ca495991b7852b855 := by decide +kernel

/-- V-SHA-2. -/
theorem sha256_abc : digitsValue 256 ((Sha.sha256 [0x61, 0x62, 0x63]).map BitVec.toNat) =
    0xba7816bf8f01cfea414140de5dae2223b00361a396177a9cb410ff61f20015ad := by decide +kernel

/-- V-HSH-6: the length field does not fit the block of the message. -/
theorem dsha_56_bytes : digitsValue 256 ((Sha.dsha (List.replicate 56 0x61)).map BitVec.toNat) =
    0x122cf0fa8f81dae14842491eedeab26374370514f6c4413bcc32352ae586b39e := by decide +kernel

/-- V-HSH-7: the message is one block. -/
theorem dsha_64_bytes : digitsValue 256 ((Sha.dsha (List.replicate 64 0x61)).map BitVec.toNat) =
    0x64d28424725a6f219efb17d6f8e4036719bf9e1a8ec2388c22cfb5fc412d46bc := by decide +kernel

/-- V-HSH-8: the message is four blocks. -/
theorem dsha_256_bytes : digitsValue 256 ((Sha.dsha ((List.range 256).map (BitVec.ofNat 8))).map BitVec.toNat) =
    0x60bd11c69262f84ddfea5f0d116d40af862c4dd8c2a92fb90e368b132e8fa89c := by decide +kernel

/-- Settles O54: the lengths hold of every message; the published digests are evaluations. -/
theorem shaDigestsAreThePublishedOnes : Obligations.ShaDigestsAreThePublishedOnes :=
  ⟨fun m => ⟨sha256_length m, dsha_length m⟩, sha256_empty, sha256_abc, dsha_56_bytes, dsha_64_bytes, dsha_256_bytes⟩

end Sys2Proof.Machine
end

section
/-! The statement about HASH2 (41_hash.md R192). -/

namespace Sys2Proof.Machine

/-- R192: a successful hash completes with `DIGEST` packed and nothing else changed. -/
theorem finish_digested_of_coherent {s : State} (h : s.Coherent) (d : List Byte) :
    s.finish (Ran.complete (s.source.putDigest d)) =
      s.endedWith .none 0 (fun a => { a with digest := packDigest d }) := by
  rw [State.finish, complete_arch, source_of_coherent h]
  rfl

/-- Settles O32, by the two ends of the body; at a coherent state its operand is the current one. -/
theorem hash2WritesTheDoubleHash : Obligations.Hash2WritesTheDoubleHash := by
  refine ⟨decode_encode .hash2, fun s hcoh => ?_⟩
  have hlen := source_byteLen_of_coherent hcoh
  rw [exec_eq, commandBody, ← source_bytes_of_coherent hcoh, ← hlen]
  refine ⟨fun hgt => ?_, fun hle => ?_⟩
  · rw [hash2Body_of_gt hgt, finish_fail_of_coherent hcoh, lenRangeInfo_bb]
  · rw [hash2Body_of_le hle, finish_digested_of_coherent hcoh]
    exact ⟨_, packDigest_holds (dsha_length _), rfl⟩

end Sys2Proof.Machine
end

section
/-! CHKVER and CHKAPP (42_check.md R220 to R222): the operand that CHKAPP leaves, what CHKAPP can do, and the
completions of both at a coherent state. Where a proof compares register files, the digest is a variable `d`, so that the kernel
computes no hash. -/

namespace Sys2Proof.Machine

/-! ### Reading over the end of a range -/

theorem readRange_add (m : Memory) (i n k : Nat) :
    m.readRange i (n + k) = m.readRange i n ++ m.readRange (i + n) k := by
  induction n generalizing i with
  | zero => simp [Memory.readRange]
  | succ n ih =>
    rw [Nat.succ_add, Memory.readRange, ih, Memory.readRange, List.cons_append, Nat.add_right_comm, Nat.add_assoc]

/-- A range write at the end of what is read only appends. -/
theorem readRange_writeRange_append (m : Memory) (i n : Nat) (bs : List Byte) :
    (m.writeRange (i + n) bs).readRange i (n + bs.length) = m.readRange i n ++ bs := by
  have hbefore : (m.writeRange (i + n) bs).readRange i n = m.readRange i n :=
    readRange_congr fun _ _ hj => read_writeRange_outside bs m (.inl hj)
  rw [readRange_add, readRange_writeRange, hbefore]

/-! ### The operand that CHKAPP leaves -/

/-- R220, R222: a message with the first 4 bytes of its double hash behind it is what CHKVER accepts. -/
theorem checksumHolds_append_dsha (bytes : List Byte) : checksumHolds (bytes ++ (Sha.dsha bytes).take 4) := by
  have hlen : ((Sha.dsha bytes).take 4).length = 4 := List.length_take_of_le (by simp)
  rw [checksumHolds, List.length_append, hlen, Nat.add_sub_cancel, List.take_left, List.drop_left]
  exact ⟨Nat.le_add_left _ _, rfl⟩

/-- The register file after CHKAPP has appended the checksum of the digest `d` to the operand of `a` (R222). -/
def Arch.appended (a : Arch) (d : List Byte) : Arch :=
  { a.putDigest d with
    bb := a.bb.writeRange a.byteLen.toNat (d.take 4)
    byteLen := BitVec.ofNat 16 (a.byteLen.toNat + 4) }

section
variable {a : Arch} {d : List Byte}

theorem appended_byteLen_toNat (hcap : a.byteLen.toNat + 4 ≤ 256) :
    (a.appended d).byteLen.toNat = a.byteLen.toNat + 4 := toNat_ofNat_sixteen hcap

theorem appended_bytes (hcap : a.byteLen.toNat + 4 ≤ 256) (hd : 4 ≤ d.length) :
    (a.appended d).bytes = a.bytes ++ d.take 4 := by
  have happend := readRange_writeRange_append a.bb 0 a.byteLen.toNat (d.take 4)
  rw [Nat.zero_add, List.length_take_of_le hd] at happend
  rw [Arch.bytes, appended_byteLen_toNat hcap]
  exact happend

/-- R325: the bytes in front of the four and behind them stay. -/
theorem appended_bb_read {j : Nat} (hj : j < a.byteLen.toNat ∨ a.byteLen.toNat + 4 ≤ j) :
    (a.appended d).bb.read j = a.bb.read j := by
  have hlen := List.length_take_le 4 d
  exact read_writeRange_outside _ _ (by omega)

end

/-! ### What CHKAPP can do -/

variable {c : Config} {a : Arch}

theorem chkappBody_eq_appended (hfits : a.byteLen.toNat + 4 ≤ c.byteCap) :
    chkappBody c a = Ran.complete (a.appended (Sha.dsha a.bytes)) := chkappBody_of_fits hfits

/-- R222: CHKAPP raises an error and writes nothing, or appends the checksum. -/
theorem chkappBody_cases (c : Config) (a : Arch) :
    (∃ r, chkappBody c a = Ran.fail a r ∧ r.Proper) ∨
      a.byteLen.toNat + 4 ≤ c.byteCap ∧ chkappBody c a = Ran.complete (a.appended (Sha.dsha a.bytes)) := by
  rcases Nat.lt_or_ge c.byteCap a.byteLen.toNat with hgt | hle
  · exact .inl ⟨_, chkappBody_of_gt hgt, nofun, nofun⟩
  · rcases Nat.lt_or_ge c.byteCap (a.byteLen.toNat + 4) with hover | hfits
    · exact .inl ⟨_, chkappBody_of_overflow hle hover, nofun, nofun⟩
    · exact .inr ⟨hfits, chkappBody_eq_appended hfits⟩

theorem chkappBody_of_success (h : (chkappBody c a).code = .none) :
    a.byteLen.toNat + 4 ≤ c.byteCap ∧ chkappBody c a = Ran.complete (a.appended (Sha.dsha a.bytes)) := by
  rcases chkappBody_cases c a with ⟨r, hr, hproper⟩ | hdone
  · rw [hr] at h
    exact absurd h hproper.1
  · exact hdone

/-! ### CHKVER on what CHKAPP leaves -/

/-- R220, R222: CHKVER strips the checksum of a message that carries one, with the digest of the message. -/
theorem chkverBody_of_append (h : a.byteLen.toNat ≤ c.byteCap) {bytes : List Byte}
    (hbytes : a.bytes = bytes ++ (Sha.dsha bytes).take 4) :
    chkverBody c a =
      Ran.complete { a.putDigest (Sha.dsha bytes) with byteLen := BitVec.ofNat 16 bytes.length } := by
  have hsum : checksumHolds a.bytes := hbytes ▸ checksumHolds_append_dsha bytes
  have hlen : a.byteLen.toNat - 4 = bytes.length := by
    rw [← bytes_length, hbytes, List.length_append, List.length_take_of_le (by simp), Nat.add_sub_cancel]
  rw [chkverBody_of_match h hsum, hlen, hbytes, List.take_left]

/-! ### Completions -/

variable {s : State}

theorem finish_stripped_of_coherent (h : s.Coherent) (d : List Byte) (n : BitVec 16) :
    s.finish (Ran.complete { s.source.putDigest d with byteLen := n }) =
      s.endedWith .none 0 (fun a => { a with digest := packDigest d, byteLen := n }) := by
  rw [State.finish, complete_arch, source_of_coherent h]
  rfl

/-- R221: `DIGEST` stands after a mismatch. -/
theorem finish_mismatch_of_coherent (h : s.Coherent) (d : List Byte) (r : Raise) :
    s.finish (Ran.fail (s.source.putDigest d) r) =
      s.endedWith r.code r.info (fun a => { a with digest := packDigest d }) := by
  rw [State.finish, fail_arch, source_of_coherent h]
  rfl

theorem finish_appended_of_coherent (h : s.Coherent) (d : List Byte) :
    s.finish (Ran.complete (s.source.appended d)) = s.endedWith .none 0 (fun a =>
      { a with
        digest := packDigest d
        bb := s.arch.bb.writeRange s.arch.byteLen.toNat (d.take 4)
        byteLen := BitVec.ofNat 16 (s.arch.byteLen.toNat + 4) }) := by
  rw [State.finish, complete_arch, source_of_coherent h]
  rfl

end Sys2Proof.Machine
end

section
/-! The statements about CHKVER and CHKAPP (42_check.md R220 to R222). -/

namespace Sys2Proof.Machine

/-- Settles O33, by the three ends of the body; at a coherent state its operand is the current one. -/
theorem chkverStripsAMatchingChecksum : Obligations.ChkverStripsAMatchingChecksum := by
  refine ⟨decode_encode .chkver, fun s hcoh => ?_⟩
  intro n p
  have hlen : s.source.byteLen.toNat = n := by rw [source_byteLen_of_coherent hcoh]
  have hp : p = n - 4 := payloadLength_eq n
  rw [hp, exec_eq, commandBody, ← source_bytes_of_coherent hcoh, ← hlen]
  refine ⟨fun hgt => ?_, fun hle => ⟨_, packDigest_holds (dsha_length _), fun hsum => ?_, fun hsum => ?_⟩⟩
  · rw [chkverBody_of_gt hgt, finish_fail_of_coherent hcoh, lenRangeInfo_bb]
  · rw [chkverBody_of_match hle hsum, finish_stripped_of_coherent hcoh]
  · rw [chkverBody_of_mismatch hle hsum, finish_mismatch_of_coherent hcoh, lengthInfo_eq]

/-- Settles O34, by the three ends of the body; at a coherent state its operand is the current one. -/
theorem chkappAppendsTheChecksum : Obligations.ChkappAppendsTheChecksum := by
  refine ⟨decode_encode .chkapp, fun s hcoh => ?_⟩
  have hlen := source_byteLen_of_coherent hcoh
  rw [exec_eq, commandBody, ← source_bytes_of_coherent hcoh, ← hlen]
  refine ⟨fun hgt => ?_, fun hle hover => ?_, fun hfits => ?_⟩
  · rw [chkappBody_of_gt hgt, finish_fail_of_coherent hcoh, lenRangeInfo_bb]
  · rw [chkappBody_of_overflow hle hover, finish_fail_of_coherent hcoh, lengthInfo_eq]
  · rw [chkappBody_eq_appended hfits, finish_appended_of_coherent hcoh, hlen]
    exact ⟨_, _, packDigest_holds (dsha_length _), stored_writeRange _ _ _, rfl⟩

/-- Settles O43: CHKAPP fails and writes nothing, or appends four bytes at the end of the operand. -/
theorem appendStoresFourBytesAtTheEnd : Obligations.AppendStoresFourBytesAtTheEnd := by
  intro s t hcoh hexec
  rw [exec_next hexec, commandBody]
  rcases chkappBody_cases s.cfg s.source with ⟨r, hr, -⟩ | ⟨-, hr⟩ <;> rw [hr]
  · rw [finish_fail_of_coherent hcoh]
    exact ⟨fun _ _ => rfl, fun _ => ⟨fun _ => rfl, rfl, rfl⟩, fun _ => rfl, rfl, rfl, rfl⟩
  · rw [finish_appended_of_coherent hcoh]
    exact ⟨fun j hj => appended_bb_read (a := s.arch) hj, fun herr => absurd rfl herr, fun _ => rfl, rfl, rfl, rfl⟩

/-- Settles O55: a success of CHKAPP leaves the message with its checksum behind it, and CHKVER strips that. -/
theorem appendThenVerifyRestores : Obligations.AppendThenVerifyRestores := by
  rintro s t hcoh ⟨-, -, -, -, hcap⟩ hexec herr
  have ht := exec_next hexec
  rw [ht, finish_err, commandBody] at herr
  obtain ⟨hfits, hbody⟩ := chkappBody_of_success herr
  rw [commandBody, hbody] at ht
  have hlen : t.arch.byteLen.toNat ≤ t.cfg.byteCap := by
    rw [exec_cfg hexec, ht, finish_byteLen, complete_arch, appended_byteLen_toNat (by omega)]
    exact hfits
  have hbytes : t.arch.bytes = s.source.bytes ++ (Sha.dsha s.source.bytes).take 4 := by
    rw [ht]
    exact appended_bytes (by omega) (by simp)
  have hver := chkverBody_of_append (a := t.arch.started) hlen hbytes
  refine ⟨_, exec_eq _ _, ?_⟩
  rw [commandBody, start_source, start_cfg, hver, bytes_length, BitVec.ofNat_toNat, BitVec.setWidth_eq,
    ← source_byteLen_of_coherent hcoh, ← source_bb_of_coherent hcoh, ht]
  exact ⟨rfl, rfl, rfl, fun j hj => appended_bb_read (.inl hj)⟩

end Sys2Proof.Machine
end

section
/-! ADDR and VALIDATE (43_address.md R240 to R245): their completions at a coherent state, and the registers that no stage of
VALIDATE reads. Where a proof compares register files, the digest is a variable, so that the kernel computes no hash. -/

namespace Sys2Proof.Machine

variable {c : Config} {a : Arch} {s : State}

/-! ### Completions -/

/-- R240, R245: a command that raises after clearing `RESULT` alone. -/
theorem finish_fail_clearResult_of_coherent (h : s.Coherent) (r : Raise) :
    s.finish (Ran.fail s.source.clearResult r) = s.endedWith r.code r.info (fun a => { a with result := 0 }) := by
  rw [State.finish, fail_arch, source_of_coherent h]
  rfl

theorem finish_result_of_coherent (h : s.Coherent) (w : Word) :
    s.finish (Ran.complete { s.source.clearResult with result := w }) =
      s.endedWith .none 0 (fun a => { a with result := w }) := by
  rw [State.finish, complete_arch, source_of_coherent h]
  rfl

/-! ### The registers that the stages do not read -/

/-- `a` with the flags, the code and detail word, and `RESULT` of `x`, which no stage of VALIDATE reads. -/
def Arch.stamp (a x : Arch) : Arch :=
  { a with ie := x.ie, done := x.done, ovr := x.ovr, err := x.err, errInfo := x.errInfo, result := x.result }

def Ran.stamp (r : Ran) (x : Arch) : Ran := { r with arch := r.arch.stamp x }

@[simp] theorem complete_stamp (a x : Arch) : (Ran.complete a).stamp x = Ran.complete (a.stamp x) := rfl

@[simp] theorem fail_stamp (a x : Arch) (r : Raise) : (Ran.fail a r).stamp x = Ran.fail (a.stamp x) r := rfl

theorem clearResult_eq_stamp (a : Arch) : a.clearResult = a.stamp a.clearResult := rfl

/-- R150: the same text gives the same bytes. -/
theorem dec58Body_stamp (c : Config) (a x : Arch) : dec58Body c (a.stamp x) = (dec58Body c a).stamp x := by
  rcases Nat.lt_or_ge c.textCap a.textLen.toNat with hgt | hle
  · rw [dec58Body_of_gt hgt, dec58Body_of_gt (a := a.stamp x) hgt]
    rfl
  · cases hp : toInteger 58 lookup58 a.text with
    | err i b =>
      rw [dec58Body_of_err hle hp, dec58Body_of_err (a := a.stamp x) hle hp]
      rfl
    | ok v k =>
      rw [dec58Body_of_ok hle hp, dec58Body_of_ok (a := a.stamp x) hle hp]
      rfl

theorem putDigest_stamp (a x : Arch) (d : List Byte) : (a.stamp x).putDigest d = (a.putDigest d).stamp x := rfl

/-- R220: the same bytes give the same comparison. -/
theorem chkverBody_stamp (c : Config) (a x : Arch) : chkverBody c (a.stamp x) = (chkverBody c a).stamp x := by
  rcases Nat.lt_or_ge c.byteCap a.byteLen.toNat with hgt | hle
  · rw [chkverBody_of_gt hgt, chkverBody_of_gt (a := a.stamp x) hgt]
    rfl
  · by_cases hsum : checksumHolds a.bytes
    · rw [chkverBody_of_match hle hsum, chkverBody_of_match (a := a.stamp x) hle hsum, putDigest_stamp]
      rfl
    · rw [chkverBody_of_mismatch hle hsum, chkverBody_of_mismatch (a := a.stamp x) hle hsum, putDigest_stamp]
      rfl

/-- R240: ADDR clears `RESULT` itself, and its completion overwrites the rest. -/
theorem finish_addrBody_stamp (s : State) (c : Config) (a x : Arch) :
    s.finish (addrBody c (a.stamp x)) = s.finish (addrBody c a) := by
  unfold addrBody
  rcases Nat.lt_or_ge c.byteCap a.byteLen.toNat with hgt | hle
  · rw [addrChecks_of_gt (a := a.clearResult) hgt, addrChecks_of_gt (a := (a.stamp x).clearResult) hgt]
    rfl
  · by_cases hlen : a.byteLen.toNat = 21
    · cases hv : allowed a.allow (a.bb.read 0) with
      | true =>
        rw [addrChecks_of_allowed (a := a.clearResult) hle hlen hv,
          addrChecks_of_allowed (a := (a.stamp x).clearResult) hle hlen hv]
        rfl
      | false =>
        rw [addrChecks_of_version (a := a.clearResult) hle hlen hv,
          addrChecks_of_version (a := (a.stamp x).clearResult) hle hlen hv]
        rfl
    · rw [addrChecks_of_length (a := a.clearResult) hle hlen,
        addrChecks_of_length (a := (a.stamp x).clearResult) hle hlen]
      rfl

/-! ### The stages of VALIDATE -/

/-- R220: CHKVER raises an error or completes. -/
theorem chkverBody_cases (c : Config) (a : Arch) :
    (∃ a' r, chkverBody c a = Ran.fail a' r ∧ r.Proper) ∨ ∃ a', chkverBody c a = Ran.complete a' := by
  rcases Nat.lt_or_ge c.byteCap a.byteLen.toNat with hgt | hle
  · exact .inl ⟨_, _, chkverBody_of_gt hgt, nofun, nofun⟩
  · by_cases hsum : checksumHolds a.bytes
    · exact .inr ⟨_, chkverBody_of_match hle hsum⟩
    · exact .inl ⟨_, _, chkverBody_of_mismatch hle hsum, nofun, nofun⟩

theorem validateBody_of_dec58_fail {a₁ : Arch} {r : Raise} (h : dec58Body c a = Ran.fail a₁ r) :
    validateBody c a = Ran.fail (a₁.stamp a.clearResult) r := by
  rw [validateBody, clearResult_eq_stamp, dec58Body_stamp, h]
  rfl

theorem validateBody_of_chkver_fail {a₁ a₂ : Arch} {r : Raise} (h : dec58Body c a = Ran.complete a₁)
    (h' : chkverBody c a₁ = Ran.fail a₂ r) : validateBody c a = Ran.fail (a₂.stamp a.clearResult) r := by
  rw [validateBody, clearResult_eq_stamp, dec58Body_stamp, h, complete_stamp, complete_andThen, chkverBody_stamp, h']
  rfl

/-- R245: `RESULT` is already clear where ADDR's own first line would clear it. -/
theorem validateBody_of_chkver_complete {a₁ a₂ : Arch} (h : dec58Body c a = Ran.complete a₁)
    (h' : chkverBody c a₁ = Ran.complete a₂) : validateBody c a = addrBody c (a₂.stamp a.clearResult) := by
  rw [validateBody, clearResult_eq_stamp, dec58Body_stamp, h, complete_stamp, complete_andThen, chkverBody_stamp, h']
  rfl

/-- R121, R123: CHKVER started on a completion that left `a` runs on `a`, but for registers that it does not read. -/
theorem exec_chkver_start_finish (s : State) (a : Arch) (w : Word) :
    ∃ x, exec .chkver ((s.finish (Ran.complete a)).start w) = .next (s.finish ((chkverBody s.cfg a).stamp x)) := by
  refine ⟨((s.finish (Ran.complete a)).start w).source, ?_⟩
  rw [← chkverBody_stamp]
  exact exec_eq _ _

/-- R121, R123: the same of ADDR, which overwrites those registers. -/
theorem exec_addr_start_finish (s : State) (a : Arch) (w : Word) :
    exec .addr ((s.finish (Ran.complete a)).start w) = .next (s.finish (addrBody s.cfg a)) := by
  rw [← finish_addrBody_stamp s s.cfg a ((s.finish (Ran.complete a)).start w).source]
  exact exec_eq _ _

end Sys2Proof.Machine
end

section
/-! The outcome table of VALIDATE (43_address.md R245): on a text that decodes, the row in which its run ends, and what DKS's
verdict says of the row. -/

namespace Sys2Proof.Machine

variable {c : Config} {a : Arch}

/-! ### Stored bytes -/

/-- A buffer whose bytes from `i` on are `bs` reads as `bs` there. -/
theorem readRange_eq_of_read {m : Memory} {i : Nat} {bs : List Byte} (h : ∀ j b, bs[j]? = some b → m.read (i + j) = b) :
    m.readRange i bs.length = bs := by
  refine (readRange_congr fun j hij hj => ?_).trans (readRange_writeRange m i bs)
  obtain ⟨n, rfl⟩ := Nat.exists_eq_add_of_le hij
  have hn : bs[n]? = some bs[n] := List.getElem?_eq_getElem (by omega)
  rw [h n _ hn, read_writeRange_inside bs m hn]

/-- The version byte of a payload stored from index 0 on. -/
theorem read_writeRange_zero {bytes : List Byte} (m : Memory) (h : bytes ≠ []) :
    (m.writeRange 0 bytes).read 0 = bytes.getD 0 0 := by
  obtain ⟨b, rest, rfl⟩ := List.exists_cons_of_ne_nil h
  exact read_writeRange_inside (i := 0) (a := 0) _ m rfl

/-! ### The rows -/

/-- R245: the register file that VALIDATE leaves of `a` once the text is decoded to `bytes` with `k` leading zeros: the
digest `d` of the candidate payload, and the `BYTE_LEN` and `RESULT` of the stage that ended it. -/
def Arch.validated (a : Arch) (bytes : List Byte) (k : Nat) (d : List Byte) (n : Nat) (w : Word) : Arch :=
  { a with
    bb := a.bb.writeRange 0 bytes
    convInfo := BitVec.ofNat 16 k
    digest := packDigest d
    byteLen := BitVec.ofNat 16 n
    result := w }

/-- R245: the rows of the outcome table for a text that decodes to `bytes`: the `raise`, `BYTE_LEN` and `RESULT`. -/
inductive AddressOutcome (allow : Bank) (bytes : List Byte) : Option Raise → Nat → Word → Prop where
  | checksum (hsum : ¬ checksumHolds bytes) :
      AddressOutcome allow bytes (some { code := .checksum, info := lengthInfo bytes.length }) bytes.length 0
  | length (hsum : checksumHolds bytes) (hlen : bytes.length ≠ 25) :
      AddressOutcome allow bytes (some { code := .length, info := lengthInfo (bytes.length - 4) }) (bytes.length - 4) 0
  | version (hsum : checksumHolds bytes) (hlen : bytes.length = 25) (hv : allowed allow (bytes.getD 0 0) = false) :
      AddressOutcome allow bytes (some { code := .version, info := versionInfo (bytes.getD 0 0) }) (bytes.length - 4) 0
  | valid (hsum : checksumHolds bytes) (hlen : bytes.length = 25) (hv : allowed allow (bytes.getD 0 0) = true) :
      AddressOutcome allow bytes none (bytes.length - 4) (resultWord (bytes.getD 0 0))

/-! ### The ends of a run -/

theorem validateBody_of_gt (h : c.textCap < a.textLen.toNat) :
    validateBody c a = Ran.fail a.clearResult { code := .lenRange, info := lenRangeInfo .tb a.textLen } :=
  validateBody_of_dec58_fail (dec58Body_of_gt h)

theorem validateBody_of_err (h : a.textLen.toNat ≤ c.textCap) {i : Nat} {b : Byte}
    (hp : toInteger 58 lookup58 a.text = .err i b) :
    validateBody c a = Ran.fail a.clearResult { code := .badSymbol, info := badSymbolInfo i b } :=
  validateBody_of_dec58_fail (dec58Body_of_err h hp)

/-- R240, R245: ADDR's checks on a decoded text whose checksum holds and has been stripped. -/
theorem addrChecks_outcome {bytes : List Byte} (hsum : checksumHolds bytes) (hle : bytes.length ≤ c.byteCap)
    (hcap : c.byteCap ≤ 256) (k : Nat) (d : List Byte) :
    ∃ e w, AddressOutcome a.allow bytes e (bytes.length - 4) w ∧
      addrChecks c (a.validated bytes k d (bytes.length - 4) 0) =
        { arch := a.validated bytes k d (bytes.length - 4) w, raised := e } := by
  set a' := a.validated bytes k d (bytes.length - 4) 0
  have hn : a'.byteLen.toNat = bytes.length - 4 := toNat_ofNat_sixteen (by omega)
  have hfits : a'.byteLen.toNat ≤ c.byteCap := by omega
  have h4 := hsum.1
  by_cases hlen : bytes.length = 25
  · have hv : a'.bb.read 0 = bytes.getD 0 0 := read_writeRange_zero a.bb (List.ne_nil_of_length_pos (by omega))
    cases hallow : allowed a.allow (bytes.getD 0 0) with
    | true =>
      rw [addrChecks_of_allowed hfits (by omega) (by rw [hv]; exact hallow), hv]
      exact ⟨_, _, .valid hsum hlen hallow, rfl⟩
    | false =>
      rw [addrChecks_of_version hfits (by omega) (by rw [hv]; exact hallow), hv]
      exact ⟨_, _, .version hsum hlen hallow, rfl⟩
  · rw [addrChecks_of_length hfits (by omega), hn]
    exact ⟨_, _, .length hsum hlen, rfl⟩

/-- R245: on a text within capacity that decodes, VALIDATE ends in a row of the outcome table. -/
theorem validateBody_outcome (hn : a.textLen.toNat ≤ c.textCap) (hc : c.Valid) {v k : Nat}
    (hp : toInteger 58 lookup58 a.text = .ok v k) {bytes : List Byte} (hbytes : bytes = fromInteger v k 256 sym256) :
    ∃ e n w, AddressOutcome a.allow bytes e n w ∧
      validateBody c a =
        { arch := a.validated bytes k (Sha.dsha (bytes.take (bytes.length - 4))) n w, raised := e } := by
  obtain ⟨-, -, -, htextCap, hcap⟩ := hc
  have hdec := dec58Body_of_ok (a := a.clearResult) hn hp
  have hfits : bytes.length ≤ c.byteCap := by
    rw [hbytes]
    exact (decoded_length_le_textCap hn hp).trans htextCap
  rw [← hbytes] at hdec
  set a₁ : Arch := { a.clearResult.putBytes bytes with convInfo := BitVec.ofNat 16 k }
  have hb₁ : a₁.bytes = bytes := bytes_putBytes a.clearResult (hfits.trans hcap)
  have hn₁ : a₁.byteLen.toNat = bytes.length := toNat_ofNat_sixteen (hfits.trans hcap)
  have hle₁ : a₁.byteLen.toNat ≤ c.byteCap := hn₁.trans_le hfits
  rw [validateBody, hdec, complete_andThen]
  by_cases hsum : checksumHolds bytes
  · rw [chkverBody_of_match hle₁ (by rwa [hb₁]), hb₁, hn₁, complete_andThen]
    generalize Sha.dsha _ = d
    obtain ⟨e, w, hrow, hchecks⟩ := addrChecks_outcome (a := a) hsum hfits hcap k d
    exact ⟨e, _, w, hrow, hchecks⟩
  · rw [chkverBody_of_mismatch hle₁ (by rwa [hb₁]), hb₁, hn₁, fail_andThen]
    generalize Sha.dsha _ = d
    exact ⟨_, _, _, .checksum hsum, rfl⟩

/-! ### The verdict -/

theorem decodeText_of_ok {text : List Byte} {v k : Nat} (h : toInteger 58 lookup58 text = .ok v k) :
    decodeText text = some (fromInteger v k 256 sym256) := by rw [decodeText, h]

theorem addressVerdict_of_err {allow : Bank} {text : List Byte} {i : Nat} {b : Byte}
    (h : toInteger 58 lookup58 text = .err i b) : addressVerdict allow text = .badSymbol := by
  rw [addressVerdict, decodeText, h]

theorem addressVerdict_of_decoded {allow : Bank} {text bytes : List Byte} (h : decodeText text = some bytes) :
    addressVerdict allow text =
      if ¬ checksumHolds bytes then .checksum
      else if bytes.length ≠ 25 then .length
      else if allowed allow (bytes.getD 0 0) then .none
      else .version := by
  rw [addressVerdict, h]

section
variable {allow : Bank} {bytes : List Byte} {e : Option Raise} {n : Nat} {w : Word}

/-- R245: the row of the table is the one of DKS's verdict, whatever else the run left. -/
theorem AddressOutcome.code_eq (hrow : AddressOutcome allow bytes e n w) {text : List Byte}
    (h : decodeText text = some bytes) (a : Arch) : (Ran.mk a e).code = addressVerdict allow text := by
  rw [addressVerdict_of_decoded h]
  cases hrow with
  | checksum hsum => rw [if_pos hsum]; rfl
  | length hsum hlen => rw [if_neg (not_not_intro hsum), if_pos hlen]; rfl
  | version hsum hlen hv => rw [if_neg (not_not_intro hsum), if_neg (not_not_intro hlen), hv]; rfl
  | valid hsum hlen hv => rw [if_neg (not_not_intro hsum), if_neg (not_not_intro hlen), hv]; rfl

/-- R245, R272: `ERR_INFO`, `BYTE_LEN` and `RESULT` by the code. -/
theorem AddressOutcome.registers (hrow : AddressOutcome allow bytes e n w) (a : Arch) :
    let r := Ran.mk a e
    (r.code ≠ .none → w = 0) ∧
      (r.code = .checksum → n = bytes.length ∧ r.info = BitVec.ofNat 32 bytes.length) ∧
      (r.code ≠ .checksum → n = bytes.length - 4) ∧
      (r.code = .length → r.info = BitVec.ofNat 32 (bytes.length - 4)) ∧
      (r.code = .version → r.info = BitVec.ofNat 32 ((bytes.getD 0 0).toNat * 65536)) ∧
      (r.code = .none → r.info = 0 ∧ n = 21 ∧ w = BitVec.ofNat 32 (256 + (bytes.getD 0 0).toNat)) := by
  cases hrow with
  | checksum => exact ⟨fun _ => rfl, fun _ => ⟨rfl, rfl⟩, fun h => absurd rfl h, nofun, nofun, nofun⟩
  | length => exact ⟨fun _ => rfl, nofun, fun _ => rfl, fun _ => rfl, nofun, nofun⟩
  | version => exact ⟨fun _ => rfl, nofun, fun _ => rfl, nofun, fun _ => versionInfo_eq _, nofun⟩
  | valid _ hlen =>
    exact ⟨fun h => absurd rfl h, nofun, fun _ => rfl, nofun, nofun, fun _ => ⟨rfl, by omega, resultWord_eq _⟩⟩

theorem AddressOutcome.byteLen_le (hrow : AddressOutcome allow bytes e n w) : n ≤ bytes.length := by
  cases hrow with
  | checksum => exact le_rfl
  | length | version | valid => exact Nat.sub_le _ _

end

/-- R245, R249: DKS accepts a 21-byte payload with an allowed version byte and its checksum behind it. -/
theorem addressVerdict_append_checksum {allow : Bank} {text payload : List Byte} (hlen : payload.length = 21)
    (hv : allowed allow (payload.getD 0 0) = true)
    (hdec : decodeText text = some (payload ++ (Sha.dsha payload).take 4)) : addressVerdict allow text = .none := by
  have hsum := checksumHolds_append_dsha payload
  have h25 : (payload ++ (Sha.dsha payload).take 4).length = 25 := by simp [hlen]
  have hhead : (payload ++ (Sha.dsha payload).take 4).getD 0 0 = payload.getD 0 0 :=
    List.getD_append _ _ _ _ (by omega)
  rw [addressVerdict_of_decoded hdec, if_neg (not_not_intro hsum), if_neg (not_not_intro h25), hhead, if_pos hv]

end Sys2Proof.Machine
end

section
/-! The statements about ADDR, VALIDATE and the length of an address (43_address.md R240 to R249). -/

namespace Sys2Proof.Machine

/-- Settles O37, by the first stage that fails: each later command runs on what the stage before it left, but for registers
that no stage reads. -/
theorem validateIsTheThreeCommandsInTurn : Obligations.ValidateIsTheThreeCommandsInTurn := by
  intro s
  rw [exec_eq .validate, commandBody, exec_eq .dec58, commandBody]
  rcases dec58Body_cases s.cfg s.source with ⟨r, hdec, ⟨hr, -⟩, -⟩ | ⟨v, k, -, -, hdec⟩
  · rw [validateBody_of_dec58_fail hdec, hdec]
    exact ⟨_, _, _, rfl, exec_eq _ _, exec_eq _ _, fun _ => rfl, fun h => absurd h hr, fun h => absurd h hr⟩
  · obtain ⟨a₁, hdec⟩ : ∃ a₁, dec58Body s.cfg s.source = Ran.complete a₁ := ⟨_, hdec⟩
    rw [hdec]
    obtain ⟨x, hchk⟩ := exec_chkver_start_finish s a₁ (encode .chkver)
    rcases chkverBody_cases s.cfg a₁ with ⟨a₂, r, hver, hr, -⟩ | ⟨a₂, hver⟩ <;> rw [hver] at hchk
    · rw [validateBody_of_chkver_fail hdec hver]
      exact ⟨_, _, _, rfl, hchk, exec_eq _ _, fun h => absurd rfl h, fun _ _ => rfl, fun _ h => absurd h hr⟩
    · rw [validateBody_of_chkver_complete hdec hver, finish_addrBody_stamp]
      have haddr := exec_addr_start_finish s (a₂.stamp x) (encode .addr)
      rw [finish_addrBody_stamp] at haddr
      exact ⟨_, _, _, rfl, hchk, haddr, fun h => absurd rfl h, fun _ h => absurd rfl h, fun _ _ => rfl⟩

/-- Settles O35, by the ends of the checks on the cleared registers; at a coherent state their operand is the current one. -/
theorem addrChecksLengthThenVersion : Obligations.AddrChecksLengthThenVersion := by
  refine ⟨decode_encode .addr, fun s hvalid hcoh => ?_⟩
  obtain ⟨-, htext, -, hbyte, -⟩ := hvalid
  rw [exec_eq, commandBody, addrBody, ← source_byteLen_of_coherent hcoh, ← source_bb_of_coherent hcoh,
    ← source_allow_of_coherent hcoh]
  have hfits : s.source.byteLen.toNat = 21 → s.source.clearResult.byteLen.toNat ≤ s.cfg.byteCap := by
    rw [clearResult_byteLen]
    omega
  refine ⟨fun hgt => ?_, fun hle hlen => ?_, fun hlen hv => ?_, fun hlen hv => ?_⟩
  · rw [addrChecks_of_gt (a := s.source.clearResult) hgt, finish_fail_clearResult_of_coherent hcoh, lenRangeInfo_bb,
      clearResult_byteLen]
  · rw [addrChecks_of_length (a := s.source.clearResult) hle hlen, finish_fail_clearResult_of_coherent hcoh,
      lengthInfo_eq, clearResult_byteLen]
  · rw [addrChecks_of_version (hfits hlen) hlen hv, finish_fail_clearResult_of_coherent hcoh, versionInfo_eq,
      clearResult_bb]
  · rw [addrChecks_of_allowed (hfits hlen) hlen hv, finish_result_of_coherent hcoh, resultWord_eq, clearResult_bb]

/-- Settles O36: a text that is too long or does not decode leaves only the cleared `RESULT`; any other ends in a row of the
outcome table, which the verdict names. -/
theorem validateRefinesDecodeAddress : Obligations.ValidateRefinesDecodeAddress := by
  refine ⟨decode_encode .validate, fun s hvalid hcoh => ?_⟩
  rw [exec_eq, commandBody, ← source_text_of_coherent hcoh, ← source_textLen_of_coherent hcoh,
    ← source_allow_of_coherent hcoh, ← source_bb_of_coherent hcoh]
  refine ⟨fun hgt => ?_, fun hle => ⟨_, rfl, ?_⟩⟩
  · rw [validateBody_of_gt hgt, finish_fail_clearResult_of_coherent hcoh, lenRangeInfo_tb]
  · have ⟨_, _, _, htextCap, hcap⟩ := hvalid
    cases hp : toInteger 58 lookup58 s.source.text with
    | err i b =>
      have hi := toInteger_err_lt hp
      rw [text_length] at hi
      rw [validateBody_of_err hle hp, addressVerdict_of_err hp, finish_fail_clearResult_of_coherent hcoh,
        badSymbolInfo_eq b (by omega)]
      refine ⟨rfl, rfl, rfl, fun _ => rfl, ?_, nofun⟩
      rintro _ _ ⟨⟩
      rfl
    | ok v k =>
      obtain ⟨e, n, w, hrow, hbody⟩ := validateBody_outcome hle hvalid hp rfl
      have hdec := decodeText_of_ok hp
      have hout := length_decoded_le hp
      rw [text_length] at hout
      have hk := leadingZeros_le_length v k 256 sym256
      generalize fromInteger v k 256 sym256 = bytes at *
      have hn : (BitVec.ofNat 16 n).toNat = n := toNat_ofNat_sixteen (hrow.byteLen_le.trans (by omega))
      have hcode := hrow.code_eq hdec s.source
      obtain ⟨hclear, hchecksum, hlen, hlength, hversion, hnone⟩ := hrow.registers s.source
      rw [hcode] at hclear hchecksum hlen hlength hversion hnone
      rw [hbody, hdec]
      refine ⟨hcode, rfl, rfl, hclear, nofun, ?_⟩
      rintro _ _ _ ⟨⟩ ⟨⟩
      refine ⟨stored_writeRange _ 0 _, toNat_ofNat_sixteen (by omega), packDigest_holds (dsha_length _),
        fun h => ⟨hn.trans (hchecksum h).1, (hchecksum h).2⟩, fun h => hn.trans (hlen h), hlength, hversion, fun h => ?_⟩
      obtain ⟨hinfo, h21, hw⟩ := hnone h
      exact ⟨hinfo, congrArg (BitVec.ofNat 16) h21, hw⟩

/-- Settles O38, by the row of O36 for the verdict `NONE`: the stored bytes without the checksum are the payload. -/
theorem validateAcceptsAValidAddress : Obligations.ValidateAcceptsAValidAddress := by
  intro s payload hvalid hcoh hn hlen hv hdec
  have hverdict := addressVerdict_append_checksum hlen hv hdec
  obtain ⟨-, hrefines⟩ := validateRefinesDecodeAddress
  obtain ⟨-, hle⟩ := hrefines s hvalid hcoh
  obtain ⟨t, ht, herr, -, -, -, -, hok⟩ := hle hn
  obtain ⟨v, k, htext, -⟩ := decodeText_eq_some_iff.mp hdec
  obtain ⟨⟨hstored, -⟩, -, hdigest, -, -, -, -, hnone⟩ := hok v k _ (toInteger_58_eq_ok_iff.mpr htext) hdec
  obtain ⟨hinfo, h21, hresult⟩ := hnone hverdict
  rw [List.getD_append _ _ _ _ (by omega)] at hresult
  have hlen4 : (payload ++ (Sha.dsha payload).take 4).length - 4 = payload.length := by simp
  rw [hlen4, List.take_left] at hdigest
  refine ⟨t, ht, herr.trans hverdict, hinfo, hresult, h21, ?_, hdigest⟩
  have hread : t.arch.bb.readRange 0 payload.length = payload := readRange_eq_of_read fun j b hj => by
    have hj' := (List.getElem?_eq_some_iff.mp hj).1
    exact hstored j b (by rwa [List.getElem?_append_left hj'])
  rw [hlen] at hread
  rwa [Arch.bytes, h21]

/-- Settles O52: behind the `k` leading zeros, which both forms keep, `25 - k` base-256 digits bound the value by as many
base-58 digits and 10 more. -/
theorem noLongTextDecodesToAnAddress : Obligations.NoLongTextDecodesToAnAddress := by
  intro text bytes hdec hlen
  obtain ⟨v, k, rfl, rfl⟩ := decodeText_eq_some_iff.mp hdec
  rw [fromInteger_length] at hlen ⊢
  have hpow : ∀ n ≤ 25, 256 ^ n ≤ 58 ^ (n + 10) := by decide
  have hv : v < 58 ^ ((digits 256 v).length + 10) :=
    (lt_pow_length_digits (by decide) v).trans_le (hpow _ (by omega))
  have hdigits := length_digits_le (by decide) hv
  omega

end Sys2Proof.Machine
end

section
/-! The statement about NOP (44_control.md R260). -/

namespace Sys2Proof.Machine

/-- R123: a command that writes nothing completes with `NONE` on the current registers. -/
theorem finish_complete_of_coherent {s : State} (h : s.Coherent) :
    s.finish (Ran.complete s.source) = s.ended .none 0 := by
  rw [State.finish, complete_arch, source_of_coherent h]
  rfl

/-- Settles O29: NOP's body is the completion alone, on a snapshot whose registers are the current ones. -/
theorem nopOnlyCompletes : Obligations.NopOnlyCompletes := by
  refine ⟨decode_encode .nop, fun s hcoh => ?_⟩
  rw [exec_eq, commandBody, finish_complete_of_coherent hcoh]

end Sys2Proof.Machine
end

section
/-! How commands end (60_exceptions.md, section 1): every step answers a next state, and each command completes with a code
of its row of R271's table. -/

namespace Sys2Proof.Machine

/-! ### Totality -/

/-- R123, R124: a running command always completes. -/
theorem engineTurn_total (s : State) : ∃ t, engineTurn s = .next t := by
  rcases engineTurn_cases s with ⟨-, h⟩ | ⟨-, -, r, -, h, -⟩
  · exact ⟨s, h⟩
  · exact ⟨s.finish r, h⟩

theorem act_total (s : State) (x : Input) : ∃ t, act s x = .next t := by
  cases x with
  | engineTurn => exact engineTurn_total s
  | access a => exact ⟨s.busAccess a, rfl⟩
  | hardReset => exact ⟨s.hardReset, rfl⟩

/-- Settles O11: a step is the engine's turn or one action, and each of them answers a next state. -/
theorem everyStepAnswersANextState : Obligations.EveryStepAnswersANextState := by
  intro s
  rcases step_cases s with ⟨-, h⟩ | ⟨x, rest, -, h⟩ <;> rw [h]
  · exact engineTurn_total s
  · exact act_total _ x

/-! ### Completion codes -/

variable (c : Config) (a : Arch)

/-- R271, R152: no row of the table has `DIGIT_RANGE`. -/
theorem digitRange_notMem_reportable (i : Instr) : Code.digitRange ∉ reportable i := by
  cases i <;> decide

/-- R245: a run in stages ends with a code of its last stage that ran. -/
theorem andThen_code_mem {r : Ran} {stage : Arch → Ran} {codes : List Code} (hr : r.code ∈ codes)
    (hstage : ∀ a, (stage a).code ∈ codes) : (r.andThen stage).code ∈ codes := by
  rcases andThen_cases r stage with h | ⟨-, h⟩ <;> rw [h]
  · exact hr
  · exact hstage r.arch

theorem dec58Body_code_mem : (dec58Body c a).code ∈ reportable .dec58 := by
  rcases Nat.lt_or_ge c.textCap a.textLen.toNat with hgt | hle
  · simp [dec58Body_of_gt hgt, reportable]
  · cases hp : toInteger 58 lookup58 a.text with
    | err i b => simp [dec58Body_of_err hle hp, reportable]
    | ok v k => simp [dec58Body_of_ok hle hp, reportable]

/-- R151: `BAD_SYMBOL` is not among ENC58's codes, since `to_integer` in radix 256 cannot fail. -/
theorem enc58Body_code_mem : (enc58Body c a).code ∈ reportable .enc58 := by
  rcases Nat.lt_or_ge c.byteCap a.byteLen.toNat with hgt | hle
  · simp [enc58Body_of_gt hgt, reportable]
  · obtain ⟨v, k, hp⟩ := toInteger_256_ok a.bytes
    rcases Nat.lt_or_ge c.textCap (fromInteger v k 58 sym58).length with hover | hfits
    · simp [enc58Body_of_overflow hle hp hover, reportable]
    · simp [enc58Body_of_ok hle hp hfits, reportable]

theorem hash2Body_code_mem : (hash2Body c a).code ∈ reportable .hash2 := by
  rcases Nat.lt_or_ge c.byteCap a.byteLen.toNat with hgt | hle
  · simp [hash2Body_of_gt hgt, reportable]
  · simp [hash2Body_of_le hle, reportable]

theorem chkverBody_code_mem : (chkverBody c a).code ∈ reportable .chkver := by
  rcases Nat.lt_or_ge c.byteCap a.byteLen.toNat with hgt | hle
  · simp [chkverBody_of_gt hgt, reportable]
  · by_cases hsum : checksumHolds a.bytes
    · simp [chkverBody_of_match hle hsum, reportable]
    · simp [chkverBody_of_mismatch hle hsum, reportable]

theorem chkappBody_code_mem : (chkappBody c a).code ∈ reportable .chkapp := by
  rcases Nat.lt_or_ge c.byteCap a.byteLen.toNat with hgt | hle
  · simp [chkappBody_of_gt hgt, reportable]
  · rcases Nat.lt_or_ge c.byteCap (a.byteLen.toNat + 4) with hover | hfits
    · simp [chkappBody_of_overflow hle hover, reportable]
    · simp [chkappBody_of_fits hfits, reportable]

theorem addrChecks_code_mem : (addrChecks c a).code ∈ reportable .addr := by
  rcases Nat.lt_or_ge c.byteCap a.byteLen.toNat with hgt | hle
  · simp [addrChecks_of_gt hgt, reportable]
  · by_cases hlen : a.byteLen.toNat = 21
    · cases hv : allowed a.allow (a.bb.read 0) with
      | true => simp [addrChecks_of_allowed hle hlen hv, reportable]
      | false => simp [addrChecks_of_version hle hlen hv, reportable]
    · simp [addrChecks_of_length hle hlen, reportable]

/-- R245: the rows of its three stages are contained in VALIDATE's. -/
theorem validateBody_code_mem : (validateBody c a).code ∈ reportable .validate := by
  have hdec58 : reportable .dec58 ⊆ reportable .validate := by decide
  have hchkver : reportable .chkver ⊆ reportable .validate := by decide
  have haddr : reportable .addr ⊆ reportable .validate := by decide
  exact andThen_code_mem
    (andThen_code_mem (hdec58 (dec58Body_code_mem c a.clearResult)) fun a' => hchkver (chkverBody_code_mem c a'))
    fun a' => haddr (addrChecks_code_mem c a')

theorem commandBody_code_mem (i : Instr) : (commandBody c a i).code ∈ reportable i := by
  cases i with
  | nop => exact List.mem_singleton_self _
  | dec58 => exact dec58Body_code_mem c a
  | enc58 => exact enc58Body_code_mem c a
  | hash2 => exact hash2Body_code_mem c a
  | chkver => exact chkverBody_code_mem c a
  | chkapp => exact chkappBody_code_mem c a
  | addr => exact addrChecks_code_mem c a.clearResult
  | validate => exact validateBody_code_mem c a

/-- Settles O44: a completion reports the code of its command's body, and `DIGIT_RANGE` stands in no row. -/
theorem commandsReportOnlyTheirCodes : Obligations.CommandsReportOnlyTheirCodes := by
  intro i s t hexec
  have hmem : t.arch.err ∈ reportable i := by
    rw [exec_next hexec, finish_err]
    exact commandBody_code_mem s.cfg s.source i
  exact ⟨hmem, ne_of_mem_of_not_mem hmem (digitRange_notMem_reportable i)⟩

end Sys2Proof.Machine
end

section
/-! Soft and hardware reset (70_reset_and_hazards.md R300 to R303): which buffer the abort of a command word draws anew, and
the form of a soft reset by that buffer. -/

namespace Sys2Proof.Machine

/-! ### The buffer of an aborted command -/

variable {v : Word}

theorem abortedBuffer_of_byteOutput (h : v = encode .dec58 ∨ v = encode .validate ∨ v = encode .chkapp) :
    abortedBuffer v = some .bb := by
  rcases h with rfl | rfl | rfl <;> rfl

theorem abortedBuffer_encode_enc58 : abortedBuffer (encode .enc58) = some .tb := rfl

/-- R303: a word that does not decode runs no pseudocode, so it has no destination. -/
theorem abortedBuffer_of_no_output (h : v = encode .nop ∨ v = encode .hash2 ∨ v = encode .chkver ∨ v = encode .addr ∨
    ¬ commandWordWellFormed v) : abortedBuffer v = none := by
  rcases h with rfl | rfl | rfl | rfl | h
  case inr.inr.inr.inr =>
    obtain ⟨e, he⟩ := (exists_decode_eq_error_iff v).mpr h
    rw [abortedBuffer, he]
  all_goals rfl

variable {s : State}

theorem clobbered_of_idle (h : s.engine = .idle) : s.clobbered = none := by rw [State.clobbered, h]

theorem clobbered_of_busy {S : Arch} (h : s.engine = .busy v S) : s.clobbered = abortedBuffer v := by
  rw [State.clobbered, h]

/-! ### Soft reset -/

theorem softReset_of_clobbered_none (h : s.clobbered = none) :
    s.softReset = { s with arch := Arch.reset s.arch.tb s.arch.bb, engine := .idle } := by
  rw [State.softReset, h]

theorem softReset_of_clobbered_tb (h : s.clobbered = some .tb) :
    s.softReset =
      { s with arch := Arch.reset (Memory.unspecified s.draws) s.arch.bb, engine := .idle, draws := s.draws + 1 } := by
  rw [State.softReset, h]

theorem softReset_of_clobbered_bb (h : s.clobbered = some .bb) :
    s.softReset =
      { s with arch := Arch.reset s.arch.tb (Memory.unspecified s.draws), engine := .idle, draws := s.draws + 1 } := by
  rw [State.softReset, h]

/-- R302: a write of `CTRL` with `SRST = 1` is a soft reset with an answer. -/
theorem busAccess_ctrl_of_srst (s : State) {w : Word} (h : w.getLsbD 1 = true) :
    s.busAccess (write32 0x008 w) = { s.softReset with response := some .written } := by
  rw [busAccess_ctrl, writeCtrl_of_srst h]

end Sys2Proof.Machine
end

section
/-! The statements about the resets (70_reset_and_hazards.md R300 to R303). -/

namespace Sys2Proof.Machine

/-- Settles O24: the registers and the engine are the same in every form of a soft reset; while Idle it clobbers no
buffer. -/
theorem softResetRestoresTheRegisters : Obligations.SoftResetRestoresTheRegisters := by
  intro s w hsrst
  have hirq := irq_after_soft_reset s hsrst
  rw [busAccess_ctrl_of_srst s hsrst] at hirq ⊢
  refine ⟨softReset_arch_eq_resetTable s, (softReset_arch s).2, hirq, softReset_cfg s, softReset_inputs s, fun hs => ?_⟩
  rw [softReset_of_clobbered_none (clobbered_of_idle hs)]
  exact ⟨rfl, rfl⟩

/-- Settles O25, by the buffer that the abandoned word writes: `BB`, `TB` or none. -/
theorem softResetAbortsTheCommand : Obligations.SoftResetAbortsTheCommand := by
  intro s v S w hs hsrst
  have hclobbered := clobbered_of_busy hs
  have hregisters := softReset_arch_eq_resetTable s
  rw [busAccess_ctrl_of_srst s hsrst]
  refine ⟨(softReset_arch s).2, congrArg Arch.done hregisters, congrArg Arch.err hregisters, fun h => ?_, ?_, fun h => ?_⟩
  · rw [softReset_of_clobbered_bb (hclobbered.trans (abortedBuffer_of_byteOutput h))]
    exact ⟨rfl, s.draws, le_rfl, Nat.lt_succ_self _, unspecified_drawnAs _⟩
  · rintro rfl
    rw [softReset_of_clobbered_tb (hclobbered.trans abortedBuffer_encode_enc58)]
    exact ⟨rfl, s.draws, le_rfl, Nat.lt_succ_self _, unspecified_drawnAs _⟩
  · rw [softReset_of_clobbered_none (hclobbered.trans (abortedBuffer_of_no_output h))]
    exact ⟨rfl, rfl⟩

/-- Settles O26: the two draws are the next two numbers of the counter. -/
theorem hardResetGivesTheResetTable : Obligations.HardResetGivesTheResetTable := by
  intro s rest h
  refine ⟨{ s with inputs := rest }.hardReset, by rw [step_of_cons h, act], reset_eq_resetTable _ _, rfl,
    irq_of_not_ie rfl, rfl, rfl, s.draws, s.draws + 1, ?_⟩
  exact ⟨le_rfl, Nat.le_succ _, (Nat.lt_succ_self _).ne, Nat.lt_add_of_pos_right (by decide), Nat.lt_succ_self _,
    unspecified_drawnAs _, unspecified_drawnAs _⟩

end Sys2Proof.Machine
end

section
/-! A running command ends (R331): each step takes one action from the finite list of pending ones, and an empty list is the
engine's turn. -/

namespace Sys2Proof.Machine

variable {s t : State}

theorem engineTurn_inputs (h : engineTurn s = .next t) : t.inputs = s.inputs := by
  rcases engineTurn_cases s with ⟨-, e⟩ | ⟨-, -, r, -, e, -⟩ <;> rw [e] at h <;> cases h <;> rfl

/-- R6, R94: no action takes or adds a pending one. -/
theorem act_inputs {x : Input} (h : act s x = .next t) : t.inputs = s.inputs := by
  cases x with
  | engineTurn => exact engineTurn_inputs h
  | access a => exact Host.Outcome.next.inj h ▸ (busAccess_keeps s a).2
  | hardReset => exact Host.Outcome.next.inj h ▸ rfl

/-- R123: the engine's turn leaves an idle engine. -/
theorem engineTurn_ends (s : State) : ∃ t, engineTurn s = .next t ∧ t.busy = false := by
  rcases engineTurn_cases s with ⟨hidle, h⟩ | ⟨-, -, r, -, h, -⟩
  · exact ⟨s, h, busy_of_idle hidle⟩
  · exact ⟨s.finish r, h, finish_busy s r⟩

/-- The recursion of the host's `run`, one step that answers a next state at a time. -/
theorem run_succ_of_step {M : Host.Core} {u v : M.State} (h : M.step u = .next v) (k : Nat) :
    M.run (k + 1) u = M.run k v := by
  rw [Host.Core.run, h]

/-- R331: one step more than there are pending actions takes them all and then the engine's turn. -/
theorem run_inputs_length_add_one (s : State) :
    ∃ t, Host.Core.run Sys2Proof.core (s.inputs.length + 1) s = .next t ∧ t.busy = false := by
  induction hin : s.inputs generalizing s with
  | nil =>
    obtain ⟨t, hturn, ht⟩ := engineTurn_ends s
    exact ⟨t, run_succ_of_step (M := Sys2Proof.core) ((step_of_nil hin).trans hturn) 0, ht⟩
  | cons x rest ih =>
    obtain ⟨u, hact⟩ := act_total { s with inputs := rest } x
    obtain ⟨t, hrun, ht⟩ := ih u (act_inputs hact)
    exact ⟨t, (run_succ_of_step (M := Sys2Proof.core) ((step_of_cons hin).trans hact) _).trans hrun, ht⟩

end Sys2Proof.Machine
end

section
/-! The statement about the end of a command (70_reset_and_hazards.md R331). -/

namespace Sys2Proof.Machine

/-- Settles O10, at the whole bound: the last of those steps is the engine's turn. -/
theorem everyStartedCommandEnds : Obligations.EveryStartedCommandEnds := by
  intro s _
  obtain ⟨t, hrun, ht⟩ := run_inputs_length_add_one s
  exact ⟨_, t, le_rfl, hrun, ht⟩

end Sys2Proof.Machine
end

section
/-! The register window by kind of offset (R320, R321): locked, ignored, hidden while Busy and visible while Busy. -/

namespace Sys2Proof.Machine

variable {c : Config} {off : BitVec 12} {s : State}

/-! ### What an offset names -/

/-- An aligned offset is its word number times four. -/
theorem exists_eq_ofNat_four_mul (h4 : off.toNat % 4 = 0) : ∃ j, off.toNat = 4 * j ∧ off = BitVec.ofNat 12 (4 * j) := by
  have hj : off.toNat = 4 * (off.toNat / 4) := by omega
  exact ⟨_, hj, by rw [← hj, BitVec.ofNat_toNat, BitVec.setWidth_eq]⟩

theorem regAt_of_allow_window (hlo : 0x040 ≤ off.toNat) (hhi : off.toNat < 0x060) : ∃ i, regAt off = .allow i := by
  simp (disch := omega) only [regAt, if_neg, if_pos]
  exact ⟨_, rfl⟩

theorem regAt_of_digest_window (hlo : 0x060 ≤ off.toNat) (hhi : off.toNat < 0x080) : ∃ i, regAt off = .digest i := by
  simp (disch := omega) only [regAt, if_neg, if_pos]
  exact ⟨_, rfl⟩

/-- R83: an offset of the `TB` window inside capacity; the window ends at 0x200 for every valid build. -/
theorem regAt_of_tb_inside (hc : c.Valid) (h4 : off.toNat % 4 = 0) (hlo : 0x100 ≤ off.toNat)
    (hhi : off.toNat < 0x100 + c.textCap) : ∃ j, regAt off = .tb j ∧ 4 * j < c.textCap := by
  obtain ⟨-, -, -, htext, hbyte⟩ := hc
  exact ⟨_, regAt_of_tb_window hlo (by omega), by omega⟩

theorem regAt_of_bb_inside (hc : c.Valid) (h4 : off.toNat % 4 = 0) (hlo : 0x200 ≤ off.toNat)
    (hhi : off.toNat < 0x200 + c.byteCap) : ∃ j, regAt off = .bb j ∧ 4 * j < c.byteCap := by
  obtain ⟨-, -, -, -, hbyte⟩ := hc
  exact ⟨_, regAt_of_bb_window hlo (by omega), by omega⟩

/-! ### Writes -/

/-- R320: a locked offset names `CMD`, or a register or buffer word that is written through the lock. -/
theorem writeReg_of_lockedOffset (hc : s.cfg.Valid) (h4 : off.toNat % 4 = 0) (h : lockedOffset s.cfg off.toNat)
    (w : Word) : s.writeReg w (regAt off) = s.writeCmd w ∨ ∃ f, s.writeReg w (regAt off) = s.lockedWrite f := by
  obtain ⟨n, hn, hoff⟩ := exists_eq_ofNat_four_mul h4
  rcases h with h | h | h | ⟨hlo, hhi⟩ | ⟨hlo, hhi⟩ | ⟨hlo, hhi⟩
  · obtain rfl : n = 3 := by omega
    exact .inl (by rw [hoff]; rfl)
  · obtain rfl : n = 5 := by omega
    have hreg : regAt off = .textLen := by rw [hoff]; rfl
    exact .inr ⟨_, by rw [hreg, State.writeReg]⟩
  · obtain rfl : n = 6 := by omega
    have hreg : regAt off = .byteLen := by rw [hoff]; rfl
    exact .inr ⟨_, by rw [hreg, State.writeReg]⟩
  · obtain ⟨i, hreg⟩ := regAt_of_allow_window hlo hhi
    exact .inr ⟨_, by rw [hreg, State.writeReg]⟩
  · obtain ⟨j, hreg, hj⟩ := regAt_of_tb_inside hc h4 hlo hhi
    exact .inr ⟨_, by rw [hreg, State.writeReg, if_pos hj]⟩
  · obtain ⟨j, hreg, hj⟩ := regAt_of_bb_inside hc h4 hlo hhi
    exact .inr ⟨_, by rw [hreg, State.writeReg, if_pos hj]⟩

/-- R122, R320: while Busy both forms are an overrun. -/
theorem writeReg_of_lockedOffset_of_busy (hc : s.cfg.Valid) (h4 : off.toNat % 4 = 0) (hb : s.busy = true)
    (h : lockedOffset s.cfg off.toNat) (w : Word) :
    s.writeReg w (regAt off) = { s with arch := { s.arch with ovr := true } } := by
  rcases writeReg_of_lockedOffset hc h4 h w with e | ⟨f, e⟩ <;> rw [e]
  · exact writeCmd_of_busy hb w
  · exact lockedWrite_of_busy hb f

theorem writeReg_of_reservedOffset (h4 : off.toNat % 4 = 0) (h : reservedOffset s.cfg off.toNat) (w : Word) :
    s.writeReg w (regAt off) = s := by
  rcases regAt_of_reservedOffset h4 h with hreg | ⟨j, hreg, hj⟩ | ⟨j, hreg, hj⟩ <;> rw [hreg]
  · rfl
  · exact if_neg hj.not_gt
  · exact if_neg hj.not_gt

/-- R91: an ignored offset is reserved, beyond capacity, or one of the read-only registers. -/
theorem ignoredOffset_iff {o : Nat} : ignoredOffset c o ↔
    reservedOffset c o ∨ o < 0x008 ∨ (0x01C ≤ o ∧ o < 0x028) ∨ (0x060 ≤ o ∧ o < 0x080) := by
  unfold ignoredOffset reservedOffset
  omega

theorem writeReg_of_ignoredOffset (h4 : off.toNat % 4 = 0) (h : ignoredOffset s.cfg off.toNat) (w : Word) :
    s.writeReg w (regAt off) = s := by
  obtain ⟨n, hn, hoff⟩ := exists_eq_ofNat_four_mul h4
  rcases ignoredOffset_iff.mp h with h | h | h | ⟨hlo, hhi⟩
  · exact writeReg_of_reservedOffset h4 h w
  · rw [hoff]
    obtain rfl | rfl : n = 0 ∨ n = 1 := by omega
    all_goals rfl
  · rw [hoff]
    obtain rfl | rfl | rfl : n = 7 ∨ n = 8 ∨ n = 9 := by omega
    all_goals rfl
  · obtain ⟨i, hreg⟩ := regAt_of_digest_window hlo hhi
    rw [hreg]
    rfl

/-! ### Reads while Busy -/

/-- R321: the hidden offsets name the hidden registers and buffer words. -/
theorem hiddenWhileBusy_of_hiddenOffset (hc : c.Valid) (h4 : off.toNat % 4 = 0) (h : hiddenOffset c off.toNat) :
    hiddenWhileBusy c (regAt off) = true := by
  rcases h with h | ⟨hlo, hhi⟩ | ⟨hlo, hhi⟩ | ⟨hlo, hhi⟩
  · obtain ⟨n, hn, hoff⟩ := exists_eq_ofNat_four_mul h4
    rw [hoff]
    obtain rfl | rfl | rfl | rfl | rfl : n = 5 ∨ n = 6 ∨ n = 7 ∨ n = 8 ∨ n = 9 := by omega
    all_goals rfl
  · obtain ⟨i, hreg⟩ := regAt_of_digest_window hlo hhi
    rw [hreg]
    rfl
  · obtain ⟨j, hreg, hj⟩ := regAt_of_tb_inside hc h4 hlo hhi
    rw [hreg]
    exact decide_eq_true hj
  · obtain ⟨j, hreg, hj⟩ := regAt_of_bb_inside hc h4 hlo hhi
    rw [hreg]
    exact decide_eq_true hj

/-- R321: a read of a hidden offset while Busy takes the next draw. -/
theorem busAccess_read32_of_hidden (h4 : off.toNat % 4 = 0) (hb : s.busy = true)
    (h : hiddenWhileBusy s.cfg (regAt off) = true) :
    s.busAccess (read32 off) =
      { s with response := some (.data (Config.freeWord s.draws)), draws := s.draws + 1 } := by
  rw [busAccess_read32 s h4, State.hostRead, hb, h, Bool.and_self, if_pos rfl]

/-- R321: `ID`, `HWCFG`, `CTRL` and the allow-list are not hidden, and their words do not depend on the engine. -/
theorem readReg_of_visibleOffset (h4 : off.toNat % 4 = 0)
    (h : off.toNat < 0x00C ∨ (0x040 ≤ off.toNat ∧ off.toNat < 0x060)) :
    hiddenWhileBusy s.cfg (regAt off) = false ∧
      s.readReg (regAt off) = ({ s with engine := .idle } : State).readReg (regAt off) := by
  rcases h with h | ⟨hlo, hhi⟩
  · obtain ⟨n, hn, hoff⟩ := exists_eq_ofNat_four_mul h4
    rw [hoff]
    obtain rfl | rfl | rfl : n = 0 ∨ n = 1 ∨ n = 2 := by omega
    all_goals exact ⟨rfl, rfl⟩
  · obtain ⟨i, hreg⟩ := regAt_of_allow_window hlo hhi
    rw [hreg]
    exact ⟨rfl, rfl⟩

end Sys2Proof.Machine
end

section
/-! The statements about host accesses while Busy (70_reset_and_hazards.md R320, R321). -/

namespace Sys2Proof.Machine

/-- Settles O12: an ignored offset changes nothing in either engine state, a locked one only sets `OVR`, and `CTRL` and
`STATUS` are written as while Idle. -/
theorem lockedWritesWhileBusySetOverrun : Obligations.LockedWritesWhileBusySetOverrun := by
  intro s off w hvalid h4
  refine ⟨fun hb h => ?_, fun h => ?_, fun _ hsrst => ?_, fun _ hsrst => ?_, fun _ => ?_⟩
  · rw [busAccess_write32 s h4, writeReg_of_lockedOffset_of_busy hvalid h4 hb h]
  · rw [busAccess_write32 s h4, writeReg_of_ignoredOffset h4 h]
  · rw [busAccess_ctrl, writeCtrl_of_not_srst hsrst]
  · rw [busAccess_ctrl, writeCtrl_of_srst hsrst]
    exact ⟨(softReset_arch s).2, congrArg Arch.ovr (softReset_arch_eq_resetTable s)⟩
  · rw [busAccess_status, writeStatus_eq]

/-- Settles O14: a hidden offset answers with the next draw, a visible one as `readReg` does, which of `STATUS` alone
depends on the engine. -/
theorem busyReadsAreFreshDraws : Obligations.BusyReadsAreFreshDraws := by
  intro s v S off hvalid hs h4
  refine ⟨fun h => ⟨s.draws, le_rfl, ?_⟩, fun h => ?_, ?_⟩
  · exact busAccess_read32_of_hidden h4 (busy_of_busy hs) (hiddenWhileBusy_of_hiddenOffset hvalid h4 h)
  · obtain ⟨hvisible, hread⟩ := readReg_of_visibleOffset (s := s) h4 h
    rw [busAccess_read32_of_visible s h4 (.inr hvisible), hread, answerTo_of_idle rfl h4]
  · rw [busAccess_read32_of_visible s (by decide) (.inr rfl), regAt_status, State.readReg, busy_of_busy hs]

end Sys2Proof.Machine
end

section
/-! Which commands write `RESULT`, `DIGEST` and `CONV_INFO` (R324), and the codes of a command that ended before its conversion
or its checksum stage. -/

namespace Sys2Proof.Machine

variable {c : Config} {a : Arch}

/-! ### The owners -/

/-- R324: `a'` differs from `a` in a result register only if the command `i` owns it. -/
structure Arch.KeepsUnowned (i : Instr) (a a' : Arch) : Prop where
  result   : i ≠ .addr → i ≠ .validate → a'.result = a.result
  digest   : i ≠ .hash2 → i ≠ .chkver → i ≠ .chkapp → i ≠ .validate → a'.digest = a.digest
  convInfo : i ≠ .dec58 → i ≠ .enc58 → i ≠ .validate → a'.convInfo = a.convInfo

theorem commandBody_keepsUnowned (c : Config) (a : Arch) (i : Instr) :
    a.KeepsUnowned i (commandBody c a i).arch := by
  cases i with
  | nop => exact ⟨fun _ _ => rfl, fun _ _ _ _ => rfl, fun _ _ _ => rfl⟩
  | dec58 =>
    obtain ⟨_, _, _, h⟩ := dec58Body_frame c a
    rw [commandBody, h]
    exact ⟨fun _ _ => rfl, fun _ _ _ _ => rfl, fun hi => absurd rfl hi⟩
  | enc58 =>
    obtain ⟨_, _, _, h⟩ := enc58Body_frame c a
    rw [commandBody, h]
    exact ⟨fun _ _ => rfl, fun _ _ _ _ => rfl, fun _ hi => absurd rfl hi⟩
  | hash2 =>
    obtain ⟨_, h⟩ := hash2Body_frame c a
    rw [commandBody, h]
    exact ⟨fun _ _ => rfl, fun hi => absurd rfl hi, fun _ _ _ => rfl⟩
  | chkver =>
    obtain ⟨_, _, h⟩ := chkverBody_frame c a
    rw [commandBody, h]
    exact ⟨fun _ _ => rfl, fun _ hi => absurd rfl hi, fun _ _ _ => rfl⟩
  | chkapp =>
    obtain ⟨_, _, _, h⟩ := chkappBody_frame c a
    rw [commandBody, h]
    exact ⟨fun _ _ => rfl, fun _ _ hi => absurd rfl hi, fun _ _ _ => rfl⟩
  | addr =>
    obtain ⟨_, h⟩ := addrBody_frame c a
    rw [commandBody, h]
    exact ⟨fun hi => absurd rfl hi, fun _ _ _ _ => rfl, fun _ _ _ => rfl⟩
  | validate => exact ⟨fun _ hi => absurd rfl hi, fun _ _ _ hi => absurd rfl hi, fun _ _ hi => absurd rfl hi⟩

/-! ### Commands that ended early -/

/-- R324: the codes of a conversion or a checksum stage that did not come about. -/
def earlyCodes : List Code := [.badSymbol, .overflow, .lenRange]

/-- `CONV_INFO` and `DIGEST` are as before. -/
def Arch.KeepsConversion (a a' : Arch) : Prop := a'.convInfo = a.convInfo ∧ a'.digest = a.digest

theorem none_notMem_earlyCodes : Code.none ∉ earlyCodes := by decide

theorem checksum_notMem_earlyCodes : Code.checksum ∉ earlyCodes := by decide

theorem dec58Body_of_early (h : (dec58Body c a).code ∈ earlyCodes) : a.KeepsConversion (dec58Body c a).arch := by
  rcases dec58Body_cases c a with ⟨r, hr, -, -⟩ | ⟨v, k, -, -, hr⟩ <;> rw [hr] at h ⊢
  · exact ⟨rfl, rfl⟩
  · exact absurd h none_notMem_earlyCodes

theorem enc58Body_of_early (h : (enc58Body c a).code ∈ earlyCodes) : a.KeepsConversion (enc58Body c a).arch := by
  rcases enc58Body_cases c a with ⟨r, hr, -⟩ | ⟨v, k, -, -, -, hr⟩ <;> rw [hr] at h ⊢
  · exact ⟨rfl, rfl⟩
  · exact absurd h none_notMem_earlyCodes

theorem hash2Body_of_early (h : (hash2Body c a).code ∈ earlyCodes) : a.KeepsConversion (hash2Body c a).arch := by
  rcases Nat.lt_or_ge c.byteCap a.byteLen.toNat with hgt | hle
  · rw [hash2Body_of_gt hgt]
    exact ⟨rfl, rfl⟩
  · rw [hash2Body_of_le hle] at h
    exact absurd h none_notMem_earlyCodes

/-- R221: a mismatch is no early end; `DIGEST` stands after it. -/
theorem chkverBody_of_early (h : (chkverBody c a).code ∈ earlyCodes) : a.KeepsConversion (chkverBody c a).arch := by
  rcases Nat.lt_or_ge c.byteCap a.byteLen.toNat with hgt | hle
  · rw [chkverBody_of_gt hgt]
    exact ⟨rfl, rfl⟩
  · by_cases hsum : checksumHolds a.bytes
    · rw [chkverBody_of_match hle hsum] at h
      exact absurd h none_notMem_earlyCodes
    · rw [chkverBody_of_mismatch hle hsum] at h
      exact absurd h checksum_notMem_earlyCodes

theorem chkappBody_of_early (h : (chkappBody c a).code ∈ earlyCodes) : a.KeepsConversion (chkappBody c a).arch := by
  rcases chkappBody_cases c a with ⟨r, hr, -⟩ | ⟨-, hr⟩ <;> rw [hr] at h ⊢
  · exact ⟨rfl, rfl⟩
  · exact absurd h none_notMem_earlyCodes

/-- R245: a decoded text fits `BB`, so no stage after the conversion ends with an early code. -/
theorem AddressOutcome.code_notMem_earlyCodes {allow : Bank} {bytes : List Byte} {e : Option Raise} {n : Nat} {w : Word}
    (hrow : AddressOutcome allow bytes e n w) (a : Arch) : (Ran.mk a e).code ∉ earlyCodes := by
  cases hrow with
  | checksum => exact checksum_notMem_earlyCodes
  | length => exact (by decide : Code.length ∉ earlyCodes)
  | version => exact (by decide : Code.version ∉ earlyCodes)
  | valid => exact none_notMem_earlyCodes

theorem validateBody_of_early (hc : c.Valid) (h : (validateBody c a).code ∈ earlyCodes) :
    a.KeepsConversion (validateBody c a).arch := by
  rcases Nat.lt_or_ge c.textCap a.textLen.toNat with hgt | hle
  · rw [validateBody_of_gt hgt]
    exact ⟨rfl, rfl⟩
  · cases hp : toInteger 58 lookup58 a.text with
    | err i b =>
      rw [validateBody_of_err hle hp]
      exact ⟨rfl, rfl⟩
    | ok v k =>
      obtain ⟨e, n, w, hrow, hbody⟩ := validateBody_outcome hle hc hp rfl
      rw [hbody] at h
      exact absurd h (hrow.code_notMem_earlyCodes _)

/-- R324: a command that ends early writes neither `CONV_INFO` nor `DIGEST`. -/
theorem commandBody_of_early (hc : c.Valid) {i : Instr} (h : (commandBody c a i).code ∈ earlyCodes) :
    a.KeepsConversion (commandBody c a i).arch := by
  cases i with
  | nop => exact ⟨rfl, rfl⟩
  | dec58 => exact dec58Body_of_early h
  | enc58 => exact enc58Body_of_early h
  | hash2 => exact hash2Body_of_early h
  | chkver => exact chkverBody_of_early h
  | chkapp => exact chkappBody_of_early h
  | addr =>
    obtain ⟨_, hframe⟩ := addrBody_frame c a
    rw [commandBody, hframe]
    exact ⟨rfl, rfl⟩
  | validate => exact validateBody_of_early hc h

end Sys2Proof.Machine
end

section
/-! The statement about stale results (70_reset_and_hazards.md R324). -/

namespace Sys2Proof.Machine

/-- Settles O45: the completion commits what the body left of the snapshot, whose result registers are the current ones. -/
theorem staleResultsAreKept : Obligations.StaleResultsAreKept := by
  intro i s t hvalid hcoh hexec
  have howned := commandBody_keepsUnowned s.cfg s.source i
  have hearly := commandBody_of_early (a := s.source) (i := i) hvalid
  rw [exec_next hexec, finish_err]
  generalize commandBody s.cfg s.source i = r at howned hearly ⊢
  rw [source_of_coherent hcoh] at howned hearly
  obtain ⟨hresult, hdigest, hconv⟩ := howned
  refine ⟨hresult, hdigest, hconv, fun h => hearly ?_⟩
  rcases h with h | h | h <;> rw [h] <;> decide

end Sys2Proof.Machine
end

section
/-! Buffers under another draw (R306): a written byte stays, and a write stores the same. -/

namespace Sys2Proof.Machine

variable {m : Memory} {i j : Nat}

theorem writeRange_withDraw (m : Memory) (d i : Nat) (bs : List Byte) :
    ({ m with draw := d } : Memory).writeRange i bs = { m.writeRange i bs with draw := d } := by
  induction bs generalizing m i with
  | nil => rfl
  | cons b bs ih => exact ih (m.write i b) (i + 1)

theorem readRange_withDraw_of_written {n : Nat} (h : ∀ i < n, m.written i = true) (d : Nat) :
    ({ m with draw := d } : Memory).readRange 0 n = m.readRange 0 n :=
  readRange_congr fun i _ hi => read_of_written (h i (by omega)) d

theorem written_write (h : m.written j = true ∨ j = i) (b : Byte) : (m.write i b).written j = true := by
  unfold Memory.written Memory.write
  by_cases hij : j = i
  · rw [hij, findCell_insertCell_same, Option.isSome_some]
  · rw [findCell_insertCell_ne hij]
    exact h.resolve_right hij

/-- A byte is written after a range write where it was before, and all over the range. -/
theorem written_writeRange {bs : List Byte} (h : m.written j = true ∨ i ≤ j ∧ j < i + bs.length) :
    (m.writeRange i bs).written j = true := by
  induction bs generalizing m i with
  | nil => exact h.resolve_right (by simp)
  | cons b bs ih =>
    rw [List.length_cons] at h
    by_cases hij : i + 1 ≤ j
    · exact ih (h.imp (fun hj => written_write (.inl hj) b) (by omega))
    · exact ih (.inl (written_write (h.imp_right (by omega)) b))

end Sys2Proof.Machine
end

section
/-! Commands whose examined bytes are all written (R306, R273): each body, run under other draws, ends alike and leaves the same
register file under those draws. -/

namespace Sys2Proof.Machine

/-- The same end of a run, with other draws behind the unwritten bytes of what it left. -/
def Ran.redraw (r : Ran) (dt db : Nat) : Ran := { r with arch := r.arch.redraw dt db }

variable {c : Config} {a : Arch} (dt db : Nat)

/-! ### Operands and stores

The digest is a variable `d`, so that the kernel computes no hash. -/

@[simp] theorem redraw_byteLen : (a.redraw dt db).byteLen = a.byteLen := rfl

theorem text_redraw (h : rangeWritten c.textCap a.textLen.toNat a.tb = true) (hle : a.textLen.toNat ≤ c.textCap) :
    (a.redraw dt db).text = a.text :=
  readRange_withDraw_of_written ((rangeWritten_iff.mp h).resolve_left hle.not_gt) dt

theorem bytes_redraw (h : rangeWritten c.byteCap a.byteLen.toNat a.bb = true) (hle : a.byteLen.toNat ≤ c.byteCap) :
    (a.redraw dt db).bytes = a.bytes :=
  readRange_withDraw_of_written ((rangeWritten_iff.mp h).resolve_left hle.not_gt) db

theorem putBytes_redraw (a : Arch) (out : List Byte) :
    (a.redraw dt db).putBytes out = (a.putBytes out).redraw dt db := by
  simp only [Arch.putBytes, Arch.redraw, writeRange_withDraw]

theorem putText_redraw (a : Arch) (out : List Byte) : (a.redraw dt db).putText out = (a.putText out).redraw dt db := by
  simp only [Arch.putText, Arch.redraw, writeRange_withDraw]

theorem complete_digested_redraw (a : Arch) (d : List Byte) :
    Ran.complete ((a.redraw dt db).putDigest d) = (Ran.complete (a.putDigest d)).redraw dt db := rfl

theorem complete_stripped_redraw (a : Arch) (d : List Byte) (n : BitVec 16) :
    Ran.complete { (a.redraw dt db).putDigest d with byteLen := n } =
      (Ran.complete { a.putDigest d with byteLen := n }).redraw dt db := rfl

theorem fail_digested_redraw (a : Arch) (d : List Byte) (r : Raise) :
    Ran.fail ((a.redraw dt db).putDigest d) r = (Ran.fail (a.putDigest d) r).redraw dt db := rfl

theorem complete_appended_redraw (a : Arch) (d : List Byte) :
    Ran.complete ((a.redraw dt db).appended d) = (Ran.complete (a.appended d)).redraw dt db := by
  simp only [Ran.complete, Ran.redraw, Arch.appended, Arch.putDigest, Arch.redraw, writeRange_withDraw]

/-! ### Bodies -/

theorem dec58Body_redraw (h : rangeWritten c.textCap a.textLen.toNat a.tb = true) :
    dec58Body c (a.redraw dt db) = (dec58Body c a).redraw dt db := by
  rcases Nat.lt_or_ge c.textCap a.textLen.toNat with hgt | hle
  · rw [dec58Body_of_gt hgt, dec58Body_of_gt (a := a.redraw dt db) hgt]
    rfl
  · have htext := text_redraw dt db h hle
    cases hp : toInteger 58 lookup58 a.text with
    | err i b =>
      rw [dec58Body_of_err hle hp, dec58Body_of_err (a := a.redraw dt db) hle (htext ▸ hp)]
      rfl
    | ok v k =>
      rw [dec58Body_of_ok hle hp, dec58Body_of_ok (a := a.redraw dt db) hle (htext ▸ hp), putBytes_redraw]
      rfl

section
variable (h : rangeWritten c.byteCap a.byteLen.toNat a.bb = true)
include h

theorem enc58Body_redraw : enc58Body c (a.redraw dt db) = (enc58Body c a).redraw dt db := by
  rcases Nat.lt_or_ge c.byteCap a.byteLen.toNat with hgt | hle
  · rw [enc58Body_of_gt hgt, enc58Body_of_gt (a := a.redraw dt db) hgt]
    rfl
  · have hbytes := bytes_redraw dt db h hle
    obtain ⟨v, k, hp⟩ := toInteger_256_ok a.bytes
    rcases Nat.lt_or_ge c.textCap (fromInteger v k 58 sym58).length with hover | hfits
    · rw [enc58Body_of_overflow hle hp hover, enc58Body_of_overflow (a := a.redraw dt db) hle (hbytes ▸ hp) hover]
      rfl
    · rw [enc58Body_of_ok hle hp hfits, enc58Body_of_ok (a := a.redraw dt db) hle (hbytes ▸ hp) hfits, putText_redraw]
      rfl

theorem hash2Body_redraw : hash2Body c (a.redraw dt db) = (hash2Body c a).redraw dt db := by
  rcases Nat.lt_or_ge c.byteCap a.byteLen.toNat with hgt | hle
  · rw [hash2Body_of_gt hgt, hash2Body_of_gt (a := a.redraw dt db) hgt]
    rfl
  · rw [hash2Body_of_le hle, hash2Body_of_le (a := a.redraw dt db) hle, bytes_redraw dt db h hle]
    exact complete_digested_redraw dt db a _

theorem chkverBody_redraw : chkverBody c (a.redraw dt db) = (chkverBody c a).redraw dt db := by
  rcases Nat.lt_or_ge c.byteCap a.byteLen.toNat with hgt | hle
  · rw [chkverBody_of_gt hgt, chkverBody_of_gt (a := a.redraw dt db) hgt]
    rfl
  · have hbytes := bytes_redraw dt db h hle
    by_cases hsum : checksumHolds a.bytes
    · rw [chkverBody_of_match hle hsum, chkverBody_of_match (a := a.redraw dt db) hle (hbytes ▸ hsum), hbytes,
        redraw_byteLen]
      exact complete_stripped_redraw dt db a _ _
    · rw [chkverBody_of_mismatch hle hsum, chkverBody_of_mismatch (a := a.redraw dt db) hle (hbytes ▸ hsum), hbytes,
        redraw_byteLen]
      exact fail_digested_redraw dt db a _ _

theorem chkappBody_redraw : chkappBody c (a.redraw dt db) = (chkappBody c a).redraw dt db := by
  rcases Nat.lt_or_ge c.byteCap a.byteLen.toNat with hgt | hle
  · rw [chkappBody_of_gt hgt, chkappBody_of_gt (a := a.redraw dt db) hgt]
    rfl
  · rcases Nat.lt_or_ge c.byteCap (a.byteLen.toNat + 4) with hover | hfits
    · rw [chkappBody_of_overflow hle hover, chkappBody_of_overflow (a := a.redraw dt db) hle hover]
      rfl
    · rw [chkappBody_eq_appended hfits, chkappBody_eq_appended (a := a.redraw dt db) hfits, bytes_redraw dt db h hle]
      exact complete_appended_redraw dt db a _

/-- R240: the version byte is one of the examined ones. -/
theorem addrChecks_redraw : addrChecks c (a.redraw dt db) = (addrChecks c a).redraw dt db := by
  rcases Nat.lt_or_ge c.byteCap a.byteLen.toNat with hgt | hle
  · rw [addrChecks_of_gt hgt, addrChecks_of_gt (a := a.redraw dt db) hgt]
    rfl
  · by_cases hlen : a.byteLen.toNat = 21
    · have hwritten := (rangeWritten_iff.mp h).resolve_left hle.not_gt 0 (by omega)
      have hversion : (a.redraw dt db).bb.read 0 = a.bb.read 0 := read_of_written hwritten db
      cases hv : allowed a.allow (a.bb.read 0) with
      | true =>
        rw [addrChecks_of_allowed hle hlen hv,
          addrChecks_of_allowed (a := a.redraw dt db) hle hlen (hversion ▸ hv), hversion]
        rfl
      | false =>
        rw [addrChecks_of_version hle hlen hv,
          addrChecks_of_version (a := a.redraw dt db) hle hlen (hversion ▸ hv), hversion]
        rfl
    · rw [addrChecks_of_length hle hlen, addrChecks_of_length (a := a.redraw dt db) hle hlen]
      rfl

/-- R220: CHKVER stores nothing, and a payload is shorter than what it was checked in. -/
theorem chkverBody_written (hok : (chkverBody c a).raised = none) :
    rangeWritten c.byteCap (chkverBody c a).arch.byteLen.toNat (chkverBody c a).arch.bb = true := by
  rcases Nat.lt_or_ge c.byteCap a.byteLen.toNat with hgt | hle
  · rw [chkverBody_of_gt hgt] at hok
    nomatch hok
  · have hwritten := (rangeWritten_iff.mp h).resolve_left hle.not_gt
    by_cases hsum : checksumHolds a.bytes
    · rw [chkverBody_bb, chkverBody_of_match hle hsum]
      refine rangeWritten_iff.mpr (.inr fun i hi => hwritten i ?_)
      have hmod := Nat.mod_le (a.byteLen.toNat - 4) (2 ^ 16)
      simp only [complete_arch, BitVec.toNat_ofNat] at hi
      omega
    · rw [chkverBody_of_mismatch hle hsum] at hok
      nomatch hok

end

/-- R150: DEC58 writes every byte of the operand that it leaves. -/
theorem dec58Body_written (hok : (dec58Body c a).raised = none) :
    rangeWritten c.byteCap (dec58Body c a).arch.byteLen.toNat (dec58Body c a).arch.bb = true := by
  rcases dec58Body_cases c a with ⟨r, hr, -, -⟩ | ⟨v, k, -, -, hr⟩ <;> rw [hr] at hok ⊢
  · nomatch hok
  · refine rangeWritten_iff.mpr (.inr fun i hi => written_writeRange (.inr ⟨Nat.zero_le i, ?_⟩))
    rw [Nat.zero_add]
    exact hi.trans_le (Nat.mod_le _ _)

/-! ### Stages -/

theorem andThen_of_raised_none {r : Ran} {stage : Arch → Ran} (h : (r.andThen stage).raised = none) :
    r.raised = none ∧ r.andThen stage = stage r.arch := by
  rcases andThen_cases r stage with e | e
  · rw [e] at h
    exact ⟨h, by rw [Ran.andThen, h]⟩
  · exact e

theorem andThen_redraw {r : Ran} {stage : Arch → Ran}
    (h : r.raised = none → stage (r.arch.redraw dt db) = (stage r.arch).redraw dt db) :
    (r.redraw dt db).andThen stage = (r.andThen stage).redraw dt db := by
  cases hr : r.raised with
  | none =>
    simp only [Ran.andThen, Ran.redraw, hr] at h ⊢
    exact h trivial
  | some e => simp only [Ran.andThen, Ran.redraw, hr]

/-- R245: each later stage runs on bytes that the conversion wrote. -/
theorem validateBody_redraw (h : rangeWritten c.textCap a.textLen.toNat a.tb = true) :
    validateBody c (a.redraw dt db) = (validateBody c a).redraw dt db := by
  have hdec : dec58Body c (a.redraw dt db).clearResult = (dec58Body c a.clearResult).redraw dt db :=
    dec58Body_redraw dt db (a := a.clearResult) h
  rw [validateBody, hdec, andThen_redraw dt db fun hok => chkverBody_redraw dt db (dec58Body_written hok),
    andThen_redraw dt db fun hok => ?_]
  · rfl
  · obtain ⟨hok', e⟩ := andThen_of_raised_none hok
    rw [e] at hok ⊢
    exact addrChecks_redraw dt db (chkverBody_written (dec58Body_written hok') hok)

theorem commandBody_redraw {i : Instr} (h : operandsWritten c a i = true) :
    commandBody c (a.redraw dt db) i = (commandBody c a i).redraw dt db := by
  cases i with
  | nop => rfl
  | dec58 => exact dec58Body_redraw dt db h
  | enc58 => exact enc58Body_redraw dt db h
  | hash2 => exact hash2Body_redraw dt db h
  | chkver => exact chkverBody_redraw dt db h
  | chkapp => exact chkappBody_redraw dt db h
  | addr => exact addrChecks_redraw dt db (a := a.clearResult) h
  | validate => exact validateBody_redraw dt db h

/-! ### States -/

theorem source_redraw (s : State) : (s.redraw dt db).source = s.source.redraw dt db := by
  unfold State.source State.redraw
  cases s.engine <;> rfl

theorem finish_redraw (s : State) (r : Ran) :
    (s.redraw dt db).finish (r.redraw dt db) = (s.finish r).redraw dt db := rfl

end Sys2Proof.Machine
end

section
/-! The statement about unspecified operand bytes (70_reset_and_hazards.md R306). -/

namespace Sys2Proof.Machine

/-- Settles O57: the body examines written bytes only, so a redraw of the snapshot is a redraw of what it leaves. -/
theorem writtenOperandsDecideTheResult : Obligations.WrittenOperandsDecideTheResult := by
  intro i s dt db h
  refine ⟨_, exec_eq i s, ?_⟩
  rw [exec_eq, source_redraw, ← finish_redraw, ← commandBody_redraw dt db h]
  rfl

end Sys2Proof.Machine
end
